-- ==== Sys2Proof/Word.lean ====
section
/-! DEFINITION. The word types of the core (spec 00_scope.md R5, R9): every value is an unsigned bit vector. -/

namespace Sys2Proof

/-- An 8-bit value: a general register, a timer, a byte of memory. -/
abbrev Byte := BitVec 8

/-- A 16-bit value: the program counter, a return-stack slot, an instruction word, the keypad. -/
abbrev Word := BitVec 16

/-- A 12-bit value: the index register and the immediate `nnn`. -/
abbrev Addr := BitVec 12

/-- A 4-bit value: a register number, a sprite height, a nibble of an instruction word. -/
abbrev Nibble := BitVec 4

end Sys2Proof
end

