-- ==== Sys2Proof/Config.lean ====
section
/-! DEFINITION. What one machine instance fixes (spec 00_scope.md R6) and the one value the spec leaves free (R7, R43).
The DEFAULT values of the parameters and of the font stand in Machine/Defaults.lean. -/

namespace Sys2Proof

/-- The construction-time parameters of R6 that the step reads. Log entry 1. -/
structure Params where
  /-- `STACK_DEPTH`, number of return-stack slots. -/
  stackDepth : Nat
  /-- `DISPLAY_W`, columns of the frame buffer. -/
  displayW : Nat
  /-- `DISPLAY_H`, rows of the frame buffer. -/
  displayH : Nat
  /-- `Q_SHIFT_USES_VY`: the shifts read `Vy` instead of `Vx` (42_alu.md R119, R121). -/
  shiftUsesVy : Bool
  /-- `Q_MEM_INCREMENTS_I`: register store and load move `I` (46_memory_transfer.md R162, R163). -/
  memIncrementsI : Bool
  /-- `Q_ADDI_SETS_VF`: `ADD I, Vx` writes VF (43_index_random.md R132). -/
  addISetsVF : Bool
  deriving DecidableEq, Repr

/-- FREE VALUE: the byte `RND` that the `k`-th execution of `RND Vx, byte` samples (10_state.md R43,
43_index_random.md R130: "a fresh unconstrained byte"). Nothing constrains it. Log entry 4. -/
opaque Config.rndByte : Nat → BitVec 8

end Sys2Proof
end

