-- ==== Sys2Proof/Syntax.lean ====
section
/-! DEFINITION. The 34 instruction forms of spec 30_encoding.md R78, in the table's order: the "tagged variant" of R72.
Operands have the exact width of their field (R71), since every value of every field is legal (R73). -/

namespace Sys2Proof

/-- One constructor per row of R78. `x`, `y` are register numbers, `n` the sprite height, `kk` the 8-bit and `nnn` the
12-bit immediate. -/
inductive Instr where
  /-- `CLS`, row 1 -/
  | cls
  /-- `RET`, row 2 -/
  | ret
  /-- `JP addr`, row 3 -/
  | jp (nnn : Addr)
  /-- `CALL addr`, row 4 -/
  | call (nnn : Addr)
  /-- `SE Vx, byte`, row 5 -/
  | seByte (x : Nibble) (kk : Byte)
  /-- `SNE Vx, byte`, row 6 -/
  | sneByte (x : Nibble) (kk : Byte)
  /-- `SE Vx, Vy`, row 7 -/
  | seReg (x y : Nibble)
  /-- `LD Vx, byte`, row 8 -/
  | ldByte (x : Nibble) (kk : Byte)
  /-- `ADD Vx, byte`, row 9 -/
  | addByte (x : Nibble) (kk : Byte)
  /-- `LD Vx, Vy`, row 10 -/
  | ldReg (x y : Nibble)
  /-- `OR Vx, Vy`, row 11 -/
  | orReg (x y : Nibble)
  /-- `AND Vx, Vy`, row 12 -/
  | andReg (x y : Nibble)
  /-- `XOR Vx, Vy`, row 13 -/
  | xorReg (x y : Nibble)
  /-- `ADD Vx, Vy`, row 14 -/
  | addReg (x y : Nibble)
  /-- `SUB Vx, Vy`, row 15 -/
  | subReg (x y : Nibble)
  /-- `SHR Vx {, Vy}`, row 16 -/
  | shr (x y : Nibble)
  /-- `SUBN Vx, Vy`, row 17 -/
  | subnReg (x y : Nibble)
  /-- `SHL Vx {, Vy}`, row 18 -/
  | shl (x y : Nibble)
  /-- `SNE Vx, Vy`, row 19 -/
  | sneReg (x y : Nibble)
  /-- `LD I, addr`, row 20 -/
  | ldI (nnn : Addr)
  /-- `JP V0, addr`, row 21 -/
  | jpV0 (nnn : Addr)
  /-- `RND Vx, byte`, row 22 -/
  | rnd (x : Nibble) (kk : Byte)
  /-- `DRW Vx, Vy, nibble`, row 23 -/
  | drw (x y n : Nibble)
  /-- `SKP Vx`, row 24 -/
  | skp (x : Nibble)
  /-- `SKNP Vx`, row 25 -/
  | sknp (x : Nibble)
  /-- `LD Vx, DT`, row 26 -/
  | ldVxDT (x : Nibble)
  /-- `LD Vx, K`, row 27 -/
  | ldVxK (x : Nibble)
  /-- `LD DT, Vx`, row 28 -/
  | ldDTVx (x : Nibble)
  /-- `LD ST, Vx`, row 29 -/
  | ldSTVx (x : Nibble)
  /-- `ADD I, Vx`, row 30 -/
  | addI (x : Nibble)
  /-- `LD F, Vx`, row 31 -/
  | ldF (x : Nibble)
  /-- `LD B, Vx`, row 32 -/
  | ldB (x : Nibble)
  /-- `LD [I], Vx`, row 33 -/
  | storeRegs (x : Nibble)
  /-- `LD Vx, [I]`, row 34 -/
  | loadRegs (x : Nibble)
  deriving DecidableEq, Repr

end Sys2Proof
end

