-- ==== Sys2Proof/WellFormed.lean ====
section
/-! DEFINITION. Which arguments of the model are well formed. An `Instr` always is: its operands have their field's exact
width and 30_encoding.md R73, R82 give every value of every field of a legal form a meaning. What can be ill formed are the
parameters (00_scope.md R6) and the loader's two arguments (R6, 70_reset_and_hazards.md R205, R207). -/

namespace Sys2Proof

/-- The bounds R6 puts on the parameters: `STACK_DEPTH` at least 12, `DISPLAY_W` at least 8, `DISPLAY_H` at least 15. -/
abbrev Params.WF (p : Params) : Prop := 12 ≤ p.stackDepth ∧ 8 ≤ p.displayW ∧ 15 ≤ p.displayH

/-- `MAX_IMAGE` of R5: 4096 - 0x200 bytes. -/
def maxImage : Nat := 3584

/-- An image the loader accepts (R205, R207). -/
abbrev ImageFits (image : List Byte) : Prop := image.length ≤ maxImage

/-- A font table: 16 glyphs of 5 bytes (R5, R206). -/
abbrev FontWF (font : List Byte) : Prop := font.length = 80

end Sys2Proof
end

