-- ==== Sys2Proof/Decode.lean ====
section
/-! DEFINITION. The decoder of spec 30_encoding.md R70 to R82 and, after it, the encoder. Bit patterns: log entry 11. -/

namespace Sys2Proof

/-- What decoding gives: an instruction, or a rejection by name. -/
inductive Decoded where
  /-- the word is one of the 34 legal forms -/
  | instr (i : Instr)
  /-- the word matches no row of R78; the step raises `IllegalOpcode` (R81). -/
  | illegalOpcode (w : Word)
  /-- fewer than two bytes were given; a fetch always gives two (log entry 17). -/
  | truncated
  deriving DecidableEq, Repr

/-! ### The fields of R71 -/

/-- `op[15:12]`, the primary opcode. -/
def fieldTop (w : Word) : Nibble := w.extractLsb' 12 4
/-- `x = op[11:8]`. -/
def fieldX (w : Word) : Nibble := w.extractLsb' 8 4
/-- `y = op[7:4]`. -/
def fieldY (w : Word) : Nibble := w.extractLsb' 4 4
/-- `n = op[3:0]`. -/
def fieldN (w : Word) : Nibble := w.extractLsb' 0 4
/-- `kk = op[7:0]`. -/
def fieldKK (w : Word) : Byte := w.extractLsb' 0 8
/-- `nnn = op[11:0]`. -/
def fieldNNN (w : Word) : Addr := w.extractLsb' 0 12

/-! ### Dispatch: R74 on the top nibble, R75 to R77 in the groups -/

/-- Group 0x0: the whole word; every other `0nnn` is illegal (R74, R81). -/
def decodeGroup0 (w : Word) : Decoded :=
  if w = 0x00E0#16 then .instr .cls
  else if w = 0x00EE#16 then .instr .ret
  else .illegalOpcode w

/-- A form whose bottom nibble must be 0 (`5xy0`, `9xy0`; R82). -/
def decodeN0 (w : Word) (i : Instr) : Decoded :=
  if fieldN w = 0x0#4 then .instr i else .illegalOpcode w

/-- Group 0x8, on the bottom nibble (R75). -/
def decodeGroup8 (w : Word) : Decoded :=
  match (fieldN w).toNat with
  | 0x0 => .instr (.ldReg (fieldX w) (fieldY w))
  | 0x1 => .instr (.orReg (fieldX w) (fieldY w))
  | 0x2 => .instr (.andReg (fieldX w) (fieldY w))
  | 0x3 => .instr (.xorReg (fieldX w) (fieldY w))
  | 0x4 => .instr (.addReg (fieldX w) (fieldY w))
  | 0x5 => .instr (.subReg (fieldX w) (fieldY w))
  | 0x6 => .instr (.shr (fieldX w) (fieldY w))
  | 0x7 => .instr (.subnReg (fieldX w) (fieldY w))
  | 0xE => .instr (.shl (fieldX w) (fieldY w))
  | _ => .illegalOpcode w

/-- Group 0xE, on the bottom byte (R76). -/
def decodeGroupE (w : Word) : Decoded :=
  if fieldKK w = 0x9E#8 then .instr (.skp (fieldX w))
  else if fieldKK w = 0xA1#8 then .instr (.sknp (fieldX w))
  else .illegalOpcode w

/-- Group 0xF, on the bottom byte (R77). -/
def decodeGroupF (w : Word) : Decoded :=
  if fieldKK w = 0x07#8 then .instr (.ldVxDT (fieldX w))
  else if fieldKK w = 0x0A#8 then .instr (.ldVxK (fieldX w))
  else if fieldKK w = 0x15#8 then .instr (.ldDTVx (fieldX w))
  else if fieldKK w = 0x18#8 then .instr (.ldSTVx (fieldX w))
  else if fieldKK w = 0x1E#8 then .instr (.addI (fieldX w))
  else if fieldKK w = 0x29#8 then .instr (.ldF (fieldX w))
  else if fieldKK w = 0x33#8 then .instr (.ldB (fieldX w))
  else if fieldKK w = 0x55#8 then .instr (.storeRegs (fieldX w))
  else if fieldKK w = 0x65#8 then .instr (.loadRegs (fieldX w))
  else .illegalOpcode w

/-- Decoding, a pure function of the 16-bit word (R72), by the map of R74. -/
def decode (w : Word) : Decoded :=
  match (fieldTop w).toNat with
  | 0x0 => decodeGroup0 w
  | 0x1 => .instr (.jp (fieldNNN w))
  | 0x2 => .instr (.call (fieldNNN w))
  | 0x3 => .instr (.seByte (fieldX w) (fieldKK w))
  | 0x4 => .instr (.sneByte (fieldX w) (fieldKK w))
  | 0x5 => decodeN0 w (.seReg (fieldX w) (fieldY w))
  | 0x6 => .instr (.ldByte (fieldX w) (fieldKK w))
  | 0x7 => .instr (.addByte (fieldX w) (fieldKK w))
  | 0x8 => decodeGroup8 w
  | 0x9 => decodeN0 w (.sneReg (fieldX w) (fieldY w))
  | 0xA => .instr (.ldI (fieldNNN w))
  | 0xB => .instr (.jpV0 (fieldNNN w))
  | 0xC => .instr (.rnd (fieldX w) (fieldKK w))
  | 0xD => .instr (.drw (fieldX w) (fieldY w) (fieldN w))
  | 0xE => decodeGroupE w
  | 0xF => decodeGroupF w
  | _ => .illegalOpcode w

/-- The byte order of 20_memory.md R52: the byte at the lower address is the high byte of the word. -/
def wordOfBytes (hi lo : Byte) : Word := hi ++ lo

/-- Decoding from bytes in memory order: the instruction takes the first two (R70). -/
def decodeBytes (bs : List Byte) : Decoded :=
  match bs with
  | hi :: lo :: _ => decode (wordOfBytes hi lo)
  | _ => .truncated

/-! ### Encoding, from the patterns of R78 -/

/-- The word of an instruction, by the `pattern` column of R78. -/
def encode : Instr → Word
  | .cls => 0x00E0#16
  | .ret => 0x00EE#16
  | .jp nnn => 0x1#4 ++ nnn
  | .call nnn => 0x2#4 ++ nnn
  | .seByte x kk => 0x3#4 ++ x ++ kk
  | .sneByte x kk => 0x4#4 ++ x ++ kk
  | .seReg x y => 0x5#4 ++ x ++ y ++ 0x0#4
  | .ldByte x kk => 0x6#4 ++ x ++ kk
  | .addByte x kk => 0x7#4 ++ x ++ kk
  | .ldReg x y => 0x8#4 ++ x ++ y ++ 0x0#4
  | .orReg x y => 0x8#4 ++ x ++ y ++ 0x1#4
  | .andReg x y => 0x8#4 ++ x ++ y ++ 0x2#4
  | .xorReg x y => 0x8#4 ++ x ++ y ++ 0x3#4
  | .addReg x y => 0x8#4 ++ x ++ y ++ 0x4#4
  | .subReg x y => 0x8#4 ++ x ++ y ++ 0x5#4
  | .shr x y => 0x8#4 ++ x ++ y ++ 0x6#4
  | .subnReg x y => 0x8#4 ++ x ++ y ++ 0x7#4
  | .shl x y => 0x8#4 ++ x ++ y ++ 0xE#4
  | .sneReg x y => 0x9#4 ++ x ++ y ++ 0x0#4
  | .ldI nnn => 0xA#4 ++ nnn
  | .jpV0 nnn => 0xB#4 ++ nnn
  | .rnd x kk => 0xC#4 ++ x ++ kk
  | .drw x y n => 0xD#4 ++ x ++ y ++ n
  | .skp x => 0xE#4 ++ x ++ 0x9E#8
  | .sknp x => 0xE#4 ++ x ++ 0xA1#8
  | .ldVxDT x => 0xF#4 ++ x ++ 0x07#8
  | .ldVxK x => 0xF#4 ++ x ++ 0x0A#8
  | .ldDTVx x => 0xF#4 ++ x ++ 0x15#8
  | .ldSTVx x => 0xF#4 ++ x ++ 0x18#8
  | .addI x => 0xF#4 ++ x ++ 0x1E#8
  | .ldF x => 0xF#4 ++ x ++ 0x29#8
  | .ldB x => 0xF#4 ++ x ++ 0x33#8
  | .storeRegs x => 0xF#4 ++ x ++ 0x55#8
  | .loadRegs x => 0xF#4 ++ x ++ 0x65#8

/-- The number of the row of R78 an instruction belongs to. -/
def Instr.row : Instr → Nat
  | .cls => 1
  | .ret => 2
  | .jp _ => 3
  | .call _ => 4
  | .seByte _ _ => 5
  | .sneByte _ _ => 6
  | .seReg _ _ => 7
  | .ldByte _ _ => 8
  | .addByte _ _ => 9
  | .ldReg _ _ => 10
  | .orReg _ _ => 11
  | .andReg _ _ => 12
  | .xorReg _ _ => 13
  | .addReg _ _ => 14
  | .subReg _ _ => 15
  | .shr _ _ => 16
  | .subnReg _ _ => 17
  | .shl _ _ => 18
  | .sneReg _ _ => 19
  | .ldI _ => 20
  | .jpV0 _ => 21
  | .rnd _ _ => 22
  | .drw _ _ _ => 23
  | .skp _ => 24
  | .sknp _ => 25
  | .ldVxDT _ => 26
  | .ldVxK _ => 27
  | .ldDTVx _ => 28
  | .ldSTVx _ => 29
  | .addI _ => 30
  | .ldF _ => 31
  | .ldB _ => 32
  | .storeRegs _ => 33
  | .loadRegs _ => 34

/-- The `match` and `mask` columns of R78, by row number (`none` past the table): the second, independent writing of the
opcode map, which the decoder is held against. -/
def opcodeRow : Nat → Option (Word × Word)
  | 1 => some (0x00E0#16, 0xFFFF#16)
  | 2 => some (0x00EE#16, 0xFFFF#16)
  | 3 => some (0x1000#16, 0xF000#16)
  | 4 => some (0x2000#16, 0xF000#16)
  | 5 => some (0x3000#16, 0xF000#16)
  | 6 => some (0x4000#16, 0xF000#16)
  | 7 => some (0x5000#16, 0xF00F#16)
  | 8 => some (0x6000#16, 0xF000#16)
  | 9 => some (0x7000#16, 0xF000#16)
  | 10 => some (0x8000#16, 0xF00F#16)
  | 11 => some (0x8001#16, 0xF00F#16)
  | 12 => some (0x8002#16, 0xF00F#16)
  | 13 => some (0x8003#16, 0xF00F#16)
  | 14 => some (0x8004#16, 0xF00F#16)
  | 15 => some (0x8005#16, 0xF00F#16)
  | 16 => some (0x8006#16, 0xF00F#16)
  | 17 => some (0x8007#16, 0xF00F#16)
  | 18 => some (0x800E#16, 0xF00F#16)
  | 19 => some (0x9000#16, 0xF00F#16)
  | 20 => some (0xA000#16, 0xF000#16)
  | 21 => some (0xB000#16, 0xF000#16)
  | 22 => some (0xC000#16, 0xF000#16)
  | 23 => some (0xD000#16, 0xF000#16)
  | 24 => some (0xE09E#16, 0xF0FF#16)
  | 25 => some (0xE0A1#16, 0xF0FF#16)
  | 26 => some (0xF007#16, 0xF0FF#16)
  | 27 => some (0xF00A#16, 0xF0FF#16)
  | 28 => some (0xF015#16, 0xF0FF#16)
  | 29 => some (0xF018#16, 0xF0FF#16)
  | 30 => some (0xF01E#16, 0xF0FF#16)
  | 31 => some (0xF029#16, 0xF0FF#16)
  | 32 => some (0xF033#16, 0xF0FF#16)
  | 33 => some (0xF055#16, 0xF0FF#16)
  | 34 => some (0xF065#16, 0xF0FF#16)
  | _ => none

/-! ### The host's numbering of an instruction's bits -/

/-- The two bytes of the one instruction word whose table bits are `w` (bits at and above `nbits` are 0), high byte first
(R70, 20_memory.md R52). -/
def bytesOfTableWord (nbits w : Nat) : List Byte :=
  let word := w % 2 ^ nbits % 2 ^ 16
  [BitVec.ofNat 8 (word / 256), BitVec.ofNat 8 (word % 256)]

/-- The instruction the decoder reads from the table bits `w`. -/
def decodeTableWord (nbits w : Nat) : Option Instr :=
  match decodeBytes (bytesOfTableWord nbits w) with
  | .instr i => some i
  | .illegalOpcode _ => none
  | .truncated => none

end Sys2Proof
end

