-- ==== Sys2Proof/Machine/FrameBuffer.lean ====
section
/-! DEFINITION. The frame buffer `FB` (spec 10_state.md R40) and the pixel operations `CLS` and `DRW` are made of
(44_display.md R140 to R143). -/

namespace Sys2Proof.Machine

/-- `FB[y][x]`: rows from y = 0, each row from x = 0. -/
abbrev FrameBuffer := List (List Bool)

/-- `DISPLAY_H` rows of `DISPLAY_W` pixels. -/
abbrev FrameBuffer.WF (p : Params) (fb : FrameBuffer) : Prop :=
  fb.length = p.displayH ∧ ∀ row ∈ fb, row.length = p.displayW

/-- All pixels off. -/
def FrameBuffer.blank (p : Params) : FrameBuffer :=
  List.replicate p.displayH (List.replicate p.displayW false)

/-- Whether pixel (x, y) exists. -/
def FrameBuffer.has (fb : FrameBuffer) (px : Nat × Nat) : Bool :=
  decide (px.1 < (fb.getD px.2 []).length)

/-- Pixel (x, y), asked only of pixels that exist. -/
def FrameBuffer.get (fb : FrameBuffer) (px : Nat × Nat) : Bool := (fb.getD px.2 []).getD px.1 false

/-- Inverts pixel (x, y): the exclusive OR with a sprite bit that is 1. -/
def FrameBuffer.toggle (fb : FrameBuffer) (px : Nat × Nat) : FrameBuffer :=
  fb.modify px.2 (fun row => row.modify px.1 (fun b => !b))

/-- One pass of the inner loop of R142 for each addressed pixel: note a collision, invert the pixel. -/
def FrameBuffer.blit : List (Nat × Nat) → FrameBuffer → Bool → FrameBuffer × Bool
  | [], fb, collision => (fb, collision)
  | px :: pxs, fb, collision =>
    FrameBuffer.blit pxs (FrameBuffer.toggle fb px) (collision || FrameBuffer.get fb px)

/-- The pixels one sprite row addresses: column `c` for each 1 bit `b[7 - c]`, bit 7 leftmost (R142, G6, D19), wrapped
modulo W and H (D20). -/
def rowPixels (p : Params) (b : Byte) (x0 py : Nat) : List (Nat × Nat) :=
  ((List.range 8).filter (fun c => b.getLsbD (7 - c))).map
    (fun c => ((x0 + c) % p.displayW, py % p.displayH))

/-- The pixels a sprite of `rows` addresses from (x0, y0), in the loop order of R142. -/
def spritePixels (p : Params) (x0 : Nat) : Nat → List Byte → List (Nat × Nat)
  | _, [] => []
  | y0, b :: rows => rowPixels p b x0 y0 ++ spritePixels p x0 (y0 + 1) rows

end Sys2Proof.Machine
end

