-- ==== Sys2Proof/Machine/Defaults.lean ====
section
/-! DEFINITION. The default values of the construction-time parameters (spec 00_scope.md R6) and of the font table
(70_reset_and_hazards.md R206). A claim that uses them names them; no meaning of an instruction does. -/

namespace Sys2Proof.Machine

/-- The defaults of R6 (92_eei_decisions.md D4, D12). Log entry 1. -/
def defaultParams : Params where
  stackDepth := 16
  displayW := 64
  displayH := 32
  shiftUsesVy := false
  memIncrementsI := false
  addISetsVF := true

/-- `MEM_SIZE` of R5. -/
def memSize : Nat := 4096

/-- `ENTRY` of R5: where the image is loaded and the first instruction is fetched. -/
def entryPoint : Nat := 0x200

/-- The default glyphs of digits 0 to 3 (R206, G7). -/
def glyphs0 : List Byte :=
  [0xF0, 0x90, 0x90, 0x90, 0xF0] ++ [0x20, 0x60, 0x20, 0x20, 0x70] ++
  [0xF0, 0x10, 0xF0, 0x80, 0xF0] ++ [0xF0, 0x10, 0xF0, 0x10, 0xF0]

/-- The default glyphs of digits 4 to 7 (R206, G7). -/
def glyphs4 : List Byte :=
  [0x90, 0x90, 0xF0, 0x10, 0x10] ++ [0xF0, 0x80, 0xF0, 0x10, 0xF0] ++
  [0xF0, 0x80, 0xF0, 0x90, 0xF0] ++ [0xF0, 0x10, 0x20, 0x40, 0x40]

/-- The default glyphs of digits 8 to B (R206, G7). -/
def glyphs8 : List Byte :=
  [0xF0, 0x90, 0xF0, 0x90, 0xF0] ++ [0xF0, 0x90, 0xF0, 0x10, 0xF0] ++
  [0xF0, 0x90, 0xF0, 0x90, 0x90] ++ [0xE0, 0x90, 0xE0, 0x90, 0xE0]

/-- The default glyphs of digits C to F (R206, G7). -/
def glyphsC : List Byte :=
  [0xF0, 0x80, 0x80, 0x80, 0xF0] ++ [0xE0, 0x90, 0x90, 0x90, 0xE0] ++
  [0xF0, 0x80, 0xF0, 0x80, 0xF0] ++ [0xF0, 0x80, 0xF0, 0x80, 0x80]

/-- The default value of the parameter `FONT` (R206). Log entry 12. -/
def defaultFont : List Byte := glyphs0 ++ glyphs4 ++ glyphs8 ++ glyphsC

end Sys2Proof.Machine
end

