-- ==== Sys2Proof/Machine/Memory.lean ====
section
/-! DEFINITION. The 4096-byte memory `MEM` (spec 10_state.md R39, 20_memory.md R50 to R58) as a canonical list of cells. -/

namespace Sys2Proof.Machine

/-- Cells at strictly rising addresses below 4096, none equal to what an unlisted address reads as. -/
abbrev Memory := List Host.Cell

/-- What an unlisted address reads as: its content at launch with the default font and no image (70_reset_and_hazards.md
R204): the font table at 0 to 79, 0x00 elsewhere. Log entry 10. -/
def Memory.background (a : Nat) : Byte := defaultFont.getD a 0x00

/-- The canonical form. -/
abbrev Memory.WF (m : Memory) : Prop :=
  m.Pairwise (fun c d => c.1 < d.1) ∧ ∀ c ∈ m, c.1 < memSize ∧ c.2 ≠ Memory.background c.1

/-- The byte at an address of the array. -/
def Memory.lookup : Memory → Nat → Byte
  | [], a => Memory.background a
  | c :: m, a => if c.1 = a then c.2 else Memory.lookup m a

/-- Lists `b` at `a`, keeping the order. -/
def Memory.insert (a : Nat) (b : Byte) : Memory → Memory
  | [] => [(a, b)]
  | c :: m =>
    if a < c.1 then (a, b) :: c :: m
    else if a = c.1 then (a, b) :: m
    else c :: Memory.insert a b m

/-- Puts `b` at an address of the array: the cell goes when `b` is what the unlisted address reads as. -/
def Memory.update (m : Memory) (a : Nat) (b : Byte) : Memory :=
  if b = Memory.background a then m.filter (fun c => decide (c.1 ≠ a)) else Memory.insert a b m

/-- `MemRead(addr, 1)` of 00_scope.md R10: any natural address, reduced modulo 4096 (20_memory.md R50). -/
def Memory.read (m : Memory) (addr : Nat) : Byte := Memory.lookup m (addr % memSize)

/-- `MemWrite(addr, 1, v)` of 00_scope.md R10: any natural address, reduced modulo 4096. -/
def Memory.write (m : Memory) (addr : Nat) (b : Byte) : Memory := Memory.update m (addr % memSize) b

/-- Single-byte writes to consecutive addresses, lowest first (20_memory.md R51, R54). -/
def Memory.writeList (m : Memory) (addr : Nat) : List Byte → Memory
  | [] => m
  | b :: bs => Memory.writeList (Memory.write m addr b) (addr + 1) bs

end Sys2Proof.Machine
end

