-- ==== Sys2Proof/Machine/State.lean ====
section
/-! DEFINITION. The whole state of the core (spec 10_state.md R20 to R45), the outcomes a step can stop with, and the launch
state (70_reset_and_hazards.md R204). -/

namespace Sys2Proof.Machine

/-- `RUN`, the execution state the host drives (10_state.md R33). -/
inductive RunState where
  | running
  | paused
  | halted
  deriving DecidableEq, Repr

/-- `WAIT`, the key-wait sub-state (10_state.md R35): awaiting a key into register `reg` while `valid`. -/
structure KeyWait where
  valid : Bool
  reg : Nibble
  deriving DecidableEq, Repr

/-- `FAULT.code` (10_state.md R36). -/
inductive FaultCode where
  | none
  | illegalOpcode
  | stackOverflow
  | stackUnderflow
  deriving DecidableEq, Repr

/-- `FAULT`, the sticky fault record (10_state.md R36): the code, `pc0` and the word of the faulting instruction. -/
structure FaultRecord where
  code : FaultCode
  pc : Word
  op : Word
  deriving DecidableEq, Repr

/-- What the host may ask of the core between operations (60_exceptions.md R195): one entry of a schedule (R185). -/
inductive Event where
  /-- request one `Step` (40_step_cycle.md R90) -/
  | step
  /-- request one `Tick` (60_exceptions.md R184) -/
  | tick
  /-- write the keypad snapshot (R187) -/
  | keys (snapshot : Word)
  /-- request pause (R192) -/
  | pause
  /-- request resume (R192) -/
  | resume
  /-- request quit (R192) -/
  | quit
  /-- acknowledge the display-changed flag (R188) -/
  | ackDraw
  deriving DecidableEq, Repr

/-- The machine state: R44's table, then the model's own three fields. -/
structure State where
  /-- `V[0]` to `V[15]`, `V[15]` is VF (R20, R26) -/
  v : Vector (BitVec 8) 16
  /-- `I` (R27) -/
  i : BitVec 12
  /-- `PC` (R23) -/
  pc : BitVec 16
  /-- `SP`, the number of occupied slots (R29) -/
  sp : Nat
  /-- `STACK`, all slots, slot 0 first (R28) -/
  stack : List (BitVec 16)
  /-- `DT` (R30) -/
  dt : BitVec 8
  /-- `ST` (R31) -/
  st : BitVec 8
  /-- `MEM` (R39) -/
  mem : Memory
  /-- `FB` (R40) -/
  fb : FrameBuffer
  /-- `DRAW_FLAG` (R37) -/
  drawFlag : Bool
  /-- `KEYS`, bit k is key k (R42) -/
  keys : BitVec 16
  /-- `WAIT` (R35) -/
  wait : KeyWait
  /-- `RUN` (R33) -/
  run : RunState
  /-- `FAULT` (R36) -/
  fault : FaultRecord
  /-- the parameters of 00_scope.md R6; no step writes it. Model's own, log entry 1. -/
  params : Params
  /-- how many `RND` instructions have run: the argument of `Config.rndByte`. Model's own, log entry 4. -/
  rndCount : Nat
  /-- the host's requests not yet served, next first; with none left every step is a `Step`. Model's own, log entry 3. -/
  schedule : List Event
  deriving DecidableEq, Repr

/-- Why a step stops WITHOUT a next state. The three faults of 60_exceptions.md R170 are none of these: they are next states
with `FAULT` written. Both constructors are raised only in states that are no states of the hardware, and no step from a state
of the invariant raises one (`Obligations.StepKeepsInvariantAndAnswers`). Log entry 8. -/
inductive Fault where
  /-- raised by `CALL` and `RET` when `SP` points past the slots `STACK` has (10_state.md R28, R29); safe: it stops. -/
  | noSuchStackSlot
  /-- raised by `DRW` when it addresses a pixel the frame buffer lacks (10_state.md R40); safe: it stops. -/
  | noSuchPixel
  deriving DecidableEq, Repr

/-- Why an instruction has no meaning. -/
inductive Refusal where
  /-- raised by the arm of `exec` of an instruction without a meaning (there is none); safe: it stops. -/
  | notModelled (mnemonic : String)
  deriving DecidableEq, Repr

/-- The launch state INIT(IMAGE, FONT) of 70_reset_and_hazards.md R204 with an empty image, the default font and the default
parameters: the model's first state (R203, D25). Log entry 2. -/
def State.reset : State where
  v := Vector.replicate 16 0x00
  i := 0x000
  pc := 0x0200
  sp := 0
  stack := List.replicate defaultParams.stackDepth 0x0000
  dt := 0x00
  st := 0x00
  mem := []
  fb := FrameBuffer.blank defaultParams
  drawFlag := false
  keys := 0x0000
  wait := ⟨false, 0⟩
  run := .running
  fault := ⟨.none, 0x0000, 0x0000⟩
  params := defaultParams
  rndCount := 0
  schedule := []

end Sys2Proof.Machine
end

