-- ==== Sys2Proof/Machine/Ops.lean ====
section
/-! DEFINITION. The named operations the meanings are made of: registers, PC, memory, return stack, the fault. Spec
00_scope.md R10, R11, 10_state.md R20 to R29, 20_memory.md R50 to R58, 60_exceptions.md R178. -/

namespace Sys2Proof.Machine

/-- What an instruction answers. -/
abbrev Answer := Host.Outcome State Fault Refusal

/-! ### General registers -/

/-- `V[r]` (R20). -/
def getV (s : State) (r : Nibble) : Byte := s.v[r.toNat]'(r.isLt)

/-- `V[r] <- b` (R20): none is hardwired. -/
def setV (s : State) (r : Nibble) (b : Byte) : State := { s with v := s.v.set r.toNat b r.isLt }

/-- The number of VF (R26). -/
def regVF : Nibble := 0xF#4

/-! ### Program counter: every meaning ends in exactly one of these (00_scope.md R11) -/

/-- `npc = (pc0 + 2) mod 2^16`. -/
def nextPc (s : State) : Word := s.pc + 2

/-- `pc <- npc`. -/
def advance (s : State) : State := { s with pc := nextPc s }

/-- `pc <- target`. -/
def jumpTo (s : State) (target : Word) : State := { s with pc := target }

/-- `pc <- (npc + 2) mod 2^16` when the condition holds, else `pc <- npc` (41_control_transfer.md R100). -/
def skipIf (s : State) (c : Bool) : State := jumpTo s (if c then nextPc s + 2 else nextPc s)

/-! ### Memory -/

/-- `MemRead(addr, 1)`. -/
def readMem (s : State) (addr : Nat) : Byte := Memory.read s.mem addr

/-- `MemWrite(addr + k, 1, bs[k])` for each k, lowest first. -/
def storeBytes (s : State) (addr : Nat) (bs : List Byte) : State :=
  { s with mem := Memory.writeList s.mem addr bs }

/-- `op = MemRead(PC, 2)`, the bytes at PC mod 4096 and (PC + 1) mod 4096 (20_memory.md R52, 10_state.md R24). -/
def fetchBytes (s : State) : List Byte := [readMem s s.pc.toNat, readMem s (s.pc.toNat + 1)]

/-! ### The index register -/

/-- `I <- value mod 4096` (10_state.md R27). -/
def setIndex (s : State) (value : Nat) : State := { s with i := BitVec.ofNat 12 value }

/-! ### Return stack (10_state.md R29) -/

/-- The push of R29, its capacity check made by the caller: `none` when slot SP does not exist. -/
def pushReturn (s : State) (value : Word) : Option State :=
  if s.sp < s.stack.length then some { s with stack := s.stack.set s.sp value, sp := s.sp + 1 } else none

/-- The pop of R29, its emptiness check made by the caller: the value of slot SP - 1 and the state with SP lowered; `none`
when that slot does not exist. -/
def popReturn (s : State) : Option (Word × State) :=
  match s.stack[s.sp - 1]? with
  | some value => some (value, { s with sp := s.sp - 1 })
  | none => none

/-! ### The key-wait (10_state.md R35) -/

/-- `WAIT.valid <- 1; WAIT.reg <- x`. -/
def beginWait (s : State) (x : Nibble) : State := { s with wait := ⟨true, x⟩ }

/-- `WAIT.valid <- 0`. -/
def endWait (s : State) : State := { s with wait := ⟨false, s.wait.reg⟩ }

/-! ### Faults -/

/-- `raise F(pc0, op)` of R178: FAULT is written and nothing else, PC included. There is no handler and no return from a
fault (60_exceptions.md R181), so no second operation stands beside it. Log entry 7. -/
def raiseFault (code : FaultCode) (op : Word) (s : State) : State := { s with fault := ⟨code, s.pc, op⟩ }

end Sys2Proof.Machine
end

