-- ==== Sys2Proof/Machine/Flags.lean ====
section
/-! DEFINITION. Every flag computation of the core (spec 10_state.md R26, 42_alu.md R110, 43_index_random.md R132): result and
flag from the exact natural-number value, the flag 0x00 or 0x01, and the order of writes. -/

namespace Sys2Proof.Machine

/-- A flag as the byte VF takes (R26). -/
def flagByte (f : Bool) : Byte := if f then 0x01#8 else 0x00#8

/-- Addition: the sum modulo 256, and the carry (R112, R117). -/
def addFlag (a b : Byte) : Byte × Bool :=
  let sum := a.toNat + b.toNat
  (BitVec.ofNat 8 sum, decide (sum > 255))

/-- Subtraction `a - b`: the difference modulo 256, and NO borrow (R110 law 5, R118, R120; G4). -/
def subFlag (a b : Byte) : Byte × Bool := (BitVec.ofNat 8 (a.toNat + 256 - b.toNat), decide (a.toNat ≥ b.toNat))

/-- Shift right by one: bit 7 becomes 0, bit 0 is shifted out (R119). -/
def shrFlag (a : Byte) : Byte × Bool := (a >>> 1, a.getLsbD 0)

/-- Shift left by one: bit 0 becomes 0, bit 7 is shifted out (R121). -/
def shlFlag (a : Byte) : Byte × Bool := (a <<< 1, a.getLsbD 7)

/-- `I + V[x]` exceeds 12 bits (R132, D15). -/
def indexCarry (i : Addr) (b : Byte) : Bool := decide (i.toNat + b.toNat > 0xFFF)

/-- `VF <- f`. -/
def setVF (s : State) (f : Bool) : State := setV s regVF (flagByte f)

/-- "write result registers, then VF" (R110 law 3): with x = 15 the flag stays. -/
def writeResult (s : State) (x : Nibble) (r : Byte × Bool) : State := setVF (setV s x r.1) r.2

end Sys2Proof.Machine
end

