-- ==== Sys2Proof/Machine/Operands.lean ====
section
/-! DEFINITION. The operand forms (spec 30_encoding.md R73, 42_alu.md R119, R121, 43_index_random.md R133, 44_display.md R142,
45_keypad_timers.md R150, 46_memory_transfer.md R160). -/

namespace Sys2Proof.Machine

/-- `zext_16(nnn)`, the target of `JP` and `CALL` (R73). -/
def targetOf (nnn : Addr) : Word := nnn.zeroExtend 16

/-- `zext_16(nnn) + zext_16(V[0])`, the target of `JP V0` (41_control_transfer.md R104). -/
def offsetTarget (s : State) (nnn : Addr) : Word := nnn.zeroExtend 16 + (getV s 0x0#4).zeroExtend 16

/-- The operand of a shift: `Q_SHIFT_USES_VY ? V[y] : V[x]` (R119, R121). -/
def shiftSource (s : State) (x y : Nibble) : Byte := if s.params.shiftUsesVy then getV s y else getV s x

/-- The low nibble of `V[x]`: a key number (R150) or a digit (R133). -/
def lowNibble (s : State) (x : Nibble) : Nibble := (getV s x).extractLsb' 0 4

/-- `KEYS[k] == 1` (10_state.md R42). -/
def keyDown (s : State) (k : Nibble) : Bool := s.keys.getLsbD k.toNat

/-- `FONT_BASE + 5 * d` for the low nibble `d` of `V[x]`, with FONT_BASE = 0 (R133, 00_scope.md R5). -/
def glyphAddress (s : State) (x : Nibble) : Nat := 5 * (lowNibble s x).toNat

/-- The effective address `I + k` of R160, reduced modulo 4096 by the memory primitive (20_memory.md R58). -/
def effectiveAddress (s : State) (k : Nat) : Nat := s.i.toNat + k

/-- The bytes at I, I + 1, ..., I + n - 1. -/
def indexedBytes (s : State) (n : Nat) : List Byte :=
  (List.range n).map (fun k => readMem s (effectiveAddress s k))

/-- The values of `V[0]` to `V[x]`, inclusive (R162). -/
def regsUpTo (s : State) (x : Nibble) : List Byte := s.v.toList.take (x.toNat + 1)

/-- The three decimal digits of a byte, hundreds first (46_memory_transfer.md R161). -/
def bcdDigits (b : Byte) : List Byte :=
  [BitVec.ofNat 8 (b.toNat / 100), BitVec.ofNat 8 (b.toNat / 10 % 10), BitVec.ofNat 8 (b.toNat % 10)]

/-- `I` after a register store or load: `I + x + 1` modulo 4096 when `Q_MEM_INCREMENTS_I`, else as before (R162, R163). -/
def indexAfterTransfer (s : State) (x : Nibble) : State :=
  if s.params.memIncrementsI then setIndex s (s.i.toNat + x.toNat + 1) else s

/-- The pixels `DRW` addresses (44_display.md R142): the start coordinates modulo W and H, the rows from I. -/
def drawTargets (s : State) (x y n : Nibble) : List (Nat × Nat) :=
  spritePixels s.params ((getV s x).toNat % s.params.displayW) ((getV s y).toNat % s.params.displayH)
    (indexedBytes s n.toNat)

end Sys2Proof.Machine
end

