-- ==== Sys2Proof/Machine/Alu.lean ====
section
/-! DEFINITION. The ALU instructions (spec 42_alu.md R110 to R121). -/

namespace Sys2Proof.Machine

/-- `LD Vx, byte` (R111). -/
def execLdByte (x : Nibble) (kk : Byte) (s : State) : Answer := .next (advance (setV s x kk))

/-- `ADD Vx, byte` (R112): writes VF (C10). -/
def execAddByte (x : Nibble) (kk : Byte) (s : State) : Answer :=
  .next (advance (writeResult s x (addFlag (getV s x) kk)))

/-- `LD Vx, Vy` (R113). -/
def execLdReg (x y : Nibble) (s : State) : Answer := .next (advance (setV s x (getV s y)))

/-- `OR Vx, Vy` (R114). -/
def execOrReg (x y : Nibble) (s : State) : Answer := .next (advance (setV s x (getV s x ||| getV s y)))

/-- `AND Vx, Vy` (R115). -/
def execAndReg (x y : Nibble) (s : State) : Answer := .next (advance (setV s x (getV s x &&& getV s y)))

/-- `XOR Vx, Vy` (R116). -/
def execXorReg (x y : Nibble) (s : State) : Answer := .next (advance (setV s x (getV s x ^^^ getV s y)))

/-- `ADD Vx, Vy` (R117). -/
def execAddReg (x y : Nibble) (s : State) : Answer :=
  .next (advance (writeResult s x (addFlag (getV s x) (getV s y))))

/-- `SUB Vx, Vy` (R118). -/
def execSubReg (x y : Nibble) (s : State) : Answer :=
  .next (advance (writeResult s x (subFlag (getV s x) (getV s y))))

/-- `SHR Vx {, Vy}` (R119). -/
def execShr (x y : Nibble) (s : State) : Answer :=
  .next (advance (writeResult s x (shrFlag (shiftSource s x y))))

/-- `SUBN Vx, Vy` (R120). -/
def execSubnReg (x y : Nibble) (s : State) : Answer :=
  .next (advance (writeResult s x (subFlag (getV s y) (getV s x))))

/-- `SHL Vx {, Vy}` (R121). -/
def execShl (x y : Nibble) (s : State) : Answer :=
  .next (advance (writeResult s x (shlFlag (shiftSource s x y))))

end Sys2Proof.Machine
end

