-- ==== Sys2Proof/Machine/Control.lean ====
section
/-! DEFINITION. Control transfer: `RET`, `JP`, `CALL`, `JP V0`, `SE`, `SNE` (spec 41_control_transfer.md R100 to R108). -/

namespace Sys2Proof.Machine

/-- `RET` (R101). -/
def execRet (s : State) : Answer :=
  if s.sp = 0 then .next (raiseFault .stackUnderflow (encode .ret) s)
  else
    match popReturn s with
    | some (value, s') => .next (jumpTo s' value)
    | none => .fault .noSuchStackSlot

/-- `JP addr` (R102). -/
def execJp (nnn : Addr) (s : State) : Answer := .next (jumpTo s (targetOf nnn))

/-- `CALL addr` (R103): the capacity is checked before the push (10_state.md R29); `npc` is pushed. -/
def execCall (nnn : Addr) (s : State) : Answer :=
  if s.sp < s.params.stackDepth then
    match pushReturn s (nextPc s) with
    | some s' => .next (jumpTo s' (targetOf nnn))
    | none => .fault .noSuchStackSlot
  else .next (raiseFault .stackOverflow (encode (.call nnn)) s)

/-- `JP V0, addr` (R104). -/
def execJpV0 (nnn : Addr) (s : State) : Answer := .next (jumpTo s (offsetTarget s nnn))

/-- `SE Vx, byte` (R105). -/
def execSeByte (x : Nibble) (kk : Byte) (s : State) : Answer := .next (skipIf s (decide (getV s x = kk)))

/-- `SNE Vx, byte` (R106). -/
def execSneByte (x : Nibble) (kk : Byte) (s : State) : Answer := .next (skipIf s (decide (getV s x ≠ kk)))

/-- `SE Vx, Vy` (R107). -/
def execSeReg (x y : Nibble) (s : State) : Answer := .next (skipIf s (decide (getV s x = getV s y)))

/-- `SNE Vx, Vy` (R108). -/
def execSneReg (x y : Nibble) (s : State) : Answer := .next (skipIf s (decide (getV s x ≠ getV s y)))

end Sys2Proof.Machine
end

