-- ==== Sys2Proof/Machine/Display.lean ====
section
/-! DEFINITION. The frame-buffer writer: `CLS` and `DRW` (spec 44_display.md R140 to R144). -/

namespace Sys2Proof.Machine

/-- `CLS` (R141): the flag is set also when the display was blank. -/
def execCls (s : State) : Answer :=
  .next (advance { s with fb := FrameBuffer.blank s.params, drawFlag := true })

/-- The exclusive-OR draw of the addressed pixels (R142): FB, then VF = collision; `DRAW_FLAG` set when a pixel toggled. -/
def drawPixels (s : State) (pxs : List (Nat × Nat)) : State :=
  let r := FrameBuffer.blit pxs s.fb false
  setVF { s with fb := r.1, drawFlag := s.drawFlag || !pxs.isEmpty } r.2

/-- `DRW Vx, Vy, nibble` (R142). -/
def execDrw (x y n : Nibble) (s : State) : Answer :=
  if (drawTargets s x y n).all (FrameBuffer.has s.fb) then .next (advance (drawPixels s (drawTargets s x y n)))
  else .fault .noSuchPixel

end Sys2Proof.Machine
end

