-- ==== Sys2Proof/Machine/Index.lean ====
section
/-! DEFINITION. `RND` and the index-register instructions (spec 43_index_random.md R130 to R133). -/

namespace Sys2Proof.Machine

/-- The free byte of the next `RND`. -/
def freshByte (s : State) : Byte := Config.rndByte s.rndCount

/-- The counter moves past the byte that was drawn. -/
def countDraw (s : State) : State := { s with rndCount := s.rndCount + 1 }

/-- `RND Vx, byte` (R130): the free byte is drawn at the counter, which advances. Log entry 4. -/
def execRnd (x : Nibble) (kk : Byte) (s : State) : Answer :=
  .next (advance (countDraw (setV s x (freshByte s &&& kk))))

/-- `LD I, addr` (R131). -/
def execLdI (nnn : Addr) (s : State) : Answer := .next (advance { s with i := nnn })

/-- `ADD I, Vx` (R132): the addend is read before VF is written. -/
def execAddI (x : Nibble) (s : State) : Answer :=
  let t := setIndex s (s.i.toNat + (getV s x).toNat)
  .next (advance (if s.params.addISetsVF then setVF t (indexCarry s.i (getV s x)) else t))

/-- `LD F, Vx` (R133). -/
def execLdF (x : Nibble) (s : State) : Answer := .next (advance (setIndex s (glyphAddress s x)))

end Sys2Proof.Machine
end

