-- ==== Sys2Proof/Machine/KeypadTimer.lean ====
section
/-! DEFINITION. The keypad and timer instructions (spec 45_keypad_timers.md R150 to R156). -/

namespace Sys2Proof.Machine

/-- `SKP Vx` (R151). -/
def execSkp (x : Nibble) (s : State) : Answer := .next (skipIf s (keyDown s (lowNibble s x)))

/-- `SKNP Vx` (R152). -/
def execSknp (x : Nibble) (s : State) : Answer := .next (skipIf s (!keyDown s (lowNibble s x)))

/-- `LD Vx, DT` (R153). -/
def execLdVxDT (x : Nibble) (s : State) : Answer := .next (advance (setV s x s.dt))

/-- `LD Vx, K` (R156): the wait begins, PC advances, the keys are not looked at; the check of 40_step_cycle.md R92 ends it. -/
def execLdVxK (x : Nibble) (s : State) : Answer := .next (advance (beginWait s x))

/-- `LD DT, Vx` (R154). -/
def execLdDTVx (x : Nibble) (s : State) : Answer := .next (advance { s with dt := getV s x })

/-- `LD ST, Vx` (R155). -/
def execLdSTVx (x : Nibble) (s : State) : Answer := .next (advance { s with st := getV s x })

end Sys2Proof.Machine
end

