-- ==== Sys2Proof/Machine/Transfer.lean ====
section
/-! DEFINITION. The memory transfer instructions (spec 46_memory_transfer.md R160 to R163). -/

namespace Sys2Proof.Machine

/-- `LD B, Vx` (R161): I is unchanged under every setting. -/
def execLdB (x : Nibble) (s : State) : Answer :=
  .next (advance (storeBytes s (effectiveAddress s 0) (bcdDigits (getV s x))))

/-- `LD [I], Vx` (R162). -/
def execStoreRegs (x : Nibble) (s : State) : Answer :=
  .next (advance (indexAfterTransfer (storeBytes s (effectiveAddress s 0) (regsUpTo s x)) x))

/-- `V[k] <- bs[k]` for each k, lowest first. -/
def setRegsFrom (v : Vector Byte 16) (k : Nat) : List Byte → Vector Byte 16
  | [] => v
  | b :: bs => setRegsFrom (v.setIfInBounds k b) (k + 1) bs

/-- `LD Vx, [I]` (R163): every address comes from the I the instruction began with. -/
def execLoadRegs (x : Nibble) (s : State) : Answer :=
  .next (advance (indexAfterTransfer { s with v := setRegsFrom s.v 0 (indexedBytes s (x.toNat + 1)) } x))

end Sys2Proof.Machine
end

