-- ==== Sys2Proof/Machine/Cycle.lean ====
section
/-! DEFINITION. The two operations of the core and the host's requests: `Step` (spec 40_step_cycle.md R90 to R98), `Tick`
(60_exceptions.md R184), the run-state requests (R192), the keypad write (R187) and the display acknowledge (R188). -/

namespace Sys2Proof.Machine

/-- `Step` and `Tick` are enabled exactly when `RUN == Running` and `FAULT.code == None` (R90, R184). -/
abbrev Enabled (s : State) : Prop := s.run = .running ∧ s.fault.code = .none

/-- The least pressed key, if any key is down (R92, D18). -/
def leastKey (keys : Word) : Option Nat := (List.range 16).find? (fun k => keys.getLsbD k)

/-- The key-wait check (R92): level-sensitive; no fetch, PC unchanged. -/
def keyWaitCheck (s : State) : State :=
  match leastKey s.keys with
  | some k => endWait (setV s s.wait.reg (BitVec.ofNat 8 k))
  | none => s

/-- Fetch, decode, execute (R93 to R95); a word without a row raises `IllegalOpcode(pc0, op)` (R94). -/
def fetchExecute (s : State) : Answer :=
  match decodeBytes (fetchBytes s) with
  | .instr i => exec i s
  | .illegalOpcode w => .next (raiseFault .illegalOpcode w s)
  | .truncated => .next (raiseFault .illegalOpcode 0x0000 s)

/-- `Step` (R98): a request that is not enabled changes nothing (R90). Log entry 6. -/
def coreStep (s : State) : Answer :=
  if Enabled s then
    if s.wait.valid then .next (keyWaitCheck s) else fetchExecute s
  else .next s

/-- One timer counted toward zero, never below (R183). -/
def countDown (t : Byte) : Byte := if t.toNat > 0 then t - 1 else t

/-- `Tick` (R184): not gated by WAIT. -/
def tick (s : State) : State := if Enabled s then { s with dt := countDown s.dt, st := countDown s.st } else s

/-- The pause request: Running to Paused, no effect elsewhere (R192). -/
def afterPause : RunState → RunState
  | .running => .paused
  | .paused => .paused
  | .halted => .halted

/-- The resume request: Paused to Running, no effect elsewhere (R192). -/
def afterResume : RunState → RunState
  | .running => .running
  | .paused => .running
  | .halted => .halted

/-- The quit request: to Halted, which is terminal (R192, 10_state.md R34). -/
def afterQuit : RunState → RunState
  | .running => .halted
  | .paused => .halted
  | .halted => .halted

/-- One entry of the schedule, performed (R185, R195). -/
def runEvent (e : Event) (s : State) : Answer :=
  match e with
  | .step => coreStep s
  | .tick => .next (tick s)
  | .keys snapshot => .next { s with keys := snapshot }
  | .pause => .next { s with run := afterPause s.run }
  | .resume => .next { s with run := afterResume s.run }
  | .quit => .next { s with run := afterQuit s.run }
  | .ackDraw => .next { s with drawFlag := false }

/-- The next operation of the machine: the host's next request, or a `Step` when the schedule is empty. Log entry 3. -/
def nextOperation (s : State) : Answer :=
  match s.schedule with
  | [] => coreStep s
  | e :: rest => runEvent e { s with schedule := rest }

/-- Places the bytes of the instruction word `w` where the next fetch reads, and opens what stands before a fetch: no request
pending, the gate of R90 and the key-wait check of R91. Log entry 16. -/
def placeFetchWord (s : State) (nbits w : Nat) : State :=
  { storeBytes s s.pc.toNat (bytesOfTableWord nbits w) with
    run := .running
    fault := ⟨.none, 0x0000, 0x0000⟩
    wait := { s.wait with valid := false }
    schedule := [] }

end Sys2Proof.Machine
end

