-- ==== Sys2Proof/Machine/Step.lean ====
section
/-! DEFINITION. One step of the machine, and the placing of an instruction where it is fetched. Both only call
Machine/Cycle.lean. -/

namespace Sys2Proof.Machine

/-- One atomic transition (spec 40_step_cycle.md R90): the host's next request, or a `Step`. -/
def step (s : State) : Host.Outcome State Fault Refusal := nextOperation s

/-- `s` with the instruction word `w` where `step` fetches next. -/
def State.withFetchWord (s : State) (nbits w : Nat) : State := placeFetchWord s nbits w

end Sys2Proof.Machine
end

