-- ==== Sys2Proof/Machine/Outputs.lean ====
section
/-! DEFINITION. What the host reads off the state between operations (spec 10_state.md R33, R36, R40, 60_exceptions.md R189,
70_reset_and_hazards.md R216). -/

namespace Sys2Proof.Machine

/-- `SOUND_ON = (ST > 0)` (R189). -/
def soundOn (s : State) : Bool := decide (s.st.toNat > 0)

/-- The 2-bit encoding of `RUN` (R33, D30). -/
def runBits : RunState → BitVec 2
  | .running => 0b01
  | .paused => 0b10
  | .halted => 0b11

/-- The 2-bit encoding of `FAULT.code` (R36). -/
def faultBits : FaultCode → BitVec 2
  | .none => 0
  | .illegalOpcode => 1
  | .stackOverflow => 2
  | .stackUnderflow => 3

/-- Element `k` of the row-major frame buffer, `k = y * DISPLAY_W + x` (R40): the renderer's read port. -/
def fbElement (s : State) (k : Nat) : Bool :=
  FrameBuffer.get s.fb (k % s.params.displayW, k / s.params.displayW)

end Sys2Proof.Machine
end

