-- ==== Sys2Proof/Machine/Loader.lean ====
section
/-! DEFINITION. Reset and the load that follows it (spec 70_reset_and_hazards.md R200 to R207): how a launch state comes about
for any parameters, font and image. The loader is host software (00_scope.md R4); its result is the launch state. Log entries 2,
13. -/

namespace Sys2Proof.Machine

/-- The load-time errors (60_exceptions.md R174). -/
inductive LoadError where
  /-- the image is longer than 3584 bytes -/
  | imageTooLarge
  /-- the image cannot be obtained -/
  | imageUnreadable
  deriving DecidableEq, Repr

/-- A memory of zeros (R200). -/
def zeroedMemory : Memory := Memory.writeList [] 0 (List.replicate 80 0x00)

/-- Reset (R200): everything zero. `RUN` is not given by the spec (R203) and is an argument; the parameters are those of
the instance. The model's own counter and schedule begin as at `State.reset`. -/
def afterReset (p : Params) (run : RunState) : State where
  v := Vector.replicate 16 0x00
  i := 0x000
  pc := 0x0000
  sp := 0
  stack := List.replicate p.stackDepth 0x0000
  dt := 0x00
  st := 0x00
  mem := zeroedMemory
  fb := FrameBuffer.blank p
  drawFlag := false
  keys := 0x0000
  wait := ⟨false, 0⟩
  run := run
  fault := ⟨.none, 0x0000, 0x0000⟩
  params := p
  rndCount := 0
  schedule := []

/-- The loader's contract (R205): font to [0, 80), image to [0x200, 0x200 + len), PC = 0x200, RUN = Running; or one of the two
errors and no machine state (R207). `none` is an image that cannot be obtained. -/
def load (font : List Byte) (image : Option (List Byte)) (s : State) : Except LoadError State :=
  match image with
  | none => .error .imageUnreadable
  | some bytes =>
    if bytes.length > maxImage then .error .imageTooLarge
    else
      .ok { storeBytes (storeBytes s 0 font) entryPoint bytes with
            pc := BitVec.ofNat 16 entryPoint
            run := .running }

end Sys2Proof.Machine
end

