-- ==== Sys2Proof/Safety.lean ====
section
/-! DEFINITION. What counts as a sound state and a safe step, and the vocabulary of the obligations. -/

namespace Sys2Proof.Machine

/-- The invariant of the machine: the parameters within their bounds (spec 00_scope.md R6), memory canonical (20_memory.md R50),
`STACK_DEPTH` slots of which `SP <= STACK_DEPTH` are occupied (10_state.md R28, R29), a frame buffer of the configured size
(R40), and a fault record that is all zero until a fault and then names the frozen PC (R36, 60_exceptions.md R178, R179). -/
structure Inv (s : State) : Prop where
  params : s.params.WF
  mem : Memory.WF s.mem
  slots : s.stack.length = s.params.stackDepth
  depth : s.sp ≤ s.params.stackDepth
  fb : FrameBuffer.WF s.params s.fb
  noFault : s.fault.code = .none → s.fault.pc = 0x0000 ∧ s.fault.op = 0x0000
  frozen : s.fault.code ≠ .none → s.fault.pc = s.pc

/-- The machine is about to fetch: no request of the host is pending, the gate is open (40_step_cycle.md R90) and no key is
awaited (R91). -/
abbrev Fetching (s : State) : Prop := s.schedule = [] ∧ Enabled s ∧ s.wait.valid = false

/-- The next operation is a `Step`: the host has no request pending, or its next one is a step (log entry 3). -/
abbrev StepIsNext (s : State) : Prop := s.schedule = [] ∨ s.schedule = .step :: s.schedule.tail

/-- The zeroes of 70_reset_and_hazards.md R200, which the launch state of R204 keeps: every piece of state but PC, MEM and RUN, for
the parameters `p`. The last three fields are the model's own (log entries 1, 3, 4). -/
structure Cleared (p : Params) (s : State) : Prop where
  v : ∀ r, getV s r = 0
  i : s.i = 0
  sp : s.sp = 0
  stack : s.stack = List.replicate p.stackDepth 0
  dt : s.dt = 0
  st : s.st = 0
  fb : s.fb = List.replicate p.displayH (List.replicate p.displayW false)
  drawFlag : s.drawFlag = false
  keys : s.keys = 0
  wait : s.wait = ⟨false, 0⟩
  fault : s.fault = ⟨.none, 0, 0⟩
  params : s.params = p
  rndCount : s.rndCount = 0
  schedule : s.schedule = []

/-- The word a fetch reads (20_memory.md R52): the byte at PC mod 4096, then the byte at (PC + 1) mod 4096. -/
def fetchedWord (s : State) : Word := readMem s s.pc.toNat ++ readMem s (s.pc.toNat + 1)

/-- Quiescence (70_reset_and_hazards.md R209 case 3): `PC = a`, `a < 0x1000`, the byte at `a` is `0x10 | a[11:8]`, the next one
`a[7:0]`. -/
def AtSelfJump (s : State) : Prop :=
  s.pc.toNat < 0x1000 ∧
  (readMem s s.pc.toNat).toNat = 0x10 + s.pc.toNat / 256 ∧
  (readMem s (s.pc.toNat + 1)).toNat = s.pc.toNat % 256

/-- Pixel `px` is one of the set S of 44_display.md R143 for `DRW Vx, Vy, n` begun in `s`: some row r and column c of the
sprite at I has a 1 bit (bit 7 leftmost) that lands on it. -/
def Addressed (s : State) (x y n : Nibble) (px : Nat × Nat) : Prop :=
  ∃ r c, r < n.toNat ∧ c < 8 ∧ (readMem s (s.i.toNat + r)).getLsbD (7 - c) = true ∧
    px.1 = ((getV s x).toNat % s.params.displayW + c) % s.params.displayW ∧
    px.2 = ((getV s y).toNat % s.params.displayH + r) % s.params.displayH

/-- The instructions of 10_state.md R26's list, which write VF as a flag. -/
def writesFlag (p : Params) : Instr → Prop
  | .addByte _ _ | .addReg _ _ | .subReg _ _ | .shr _ _ | .subnReg _ _ | .shl _ _ | .drw _ _ _ => True
  | .addI _ => p.addISetsVF = true
  | .cls | .ret | .jp _ | .call _ | .seByte _ _ | .sneByte _ _ | .seReg _ _ | .ldByte _ _ | .ldReg _ _
  | .orReg _ _ | .andReg _ _ | .xorReg _ _ | .sneReg _ _ | .ldI _ | .jpV0 _ | .rnd _ _ | .skp _ | .sknp _
  | .ldVxDT _ | .ldVxK _ | .ldDTVx _ | .ldSTVx _ | .ldF _ | .ldB _ | .storeRegs _ | .loadRegs _ => False

/-- The registers an instruction names as a destination (10_state.md R22): `V[x]`, or `V[0..x]` of the register load. -/
def namesDest : Instr → Nibble → Prop
  | .ldByte x _ | .addByte x _ | .ldReg x _ | .orReg x _ | .andReg x _ | .xorReg x _ | .addReg x _ | .subReg x _
  | .shr x _ | .subnReg x _ | .shl x _ | .rnd x _ | .ldVxDT x => fun r => r = x
  | .loadRegs x => fun r => r.toNat ≤ x.toNat
  | .cls | .ret | .jp _ | .call _ | .seByte _ _ | .sneByte _ _ | .seReg _ _ | .sneReg _ _ | .ldI _ | .jpV0 _
  | .drw _ _ _ | .skp _ | .sknp _ | .ldVxK _ | .ldDTVx _ | .ldSTVx _ | .addI _ | .ldF _ | .ldB _
  | .storeRegs _ => fun _ => False

/-- The instructions that may write `I` (10_state.md R27). -/
def writesIndex (p : Params) : Instr → Prop
  | .ldI _ | .addI _ | .ldF _ => True
  | .storeRegs _ | .loadRegs _ => p.memIncrementsI = true
  | .cls | .ret | .jp _ | .call _ | .seByte _ _ | .sneByte _ _ | .seReg _ _ | .ldByte _ _ | .addByte _ _ | .ldReg _ _
  | .orReg _ _ | .andReg _ _ | .xorReg _ _ | .addReg _ _ | .subReg _ _ | .shr _ _ | .subnReg _ _ | .shl _ _
  | .sneReg _ _ | .jpV0 _ | .rnd _ _ | .drw _ _ _ | .skp _ | .sknp _ | .ldVxDT _ | .ldVxK _ | .ldDTVx _
  | .ldSTVx _ | .ldB _ => False

/-- The state after a sequence of instructions that all answer a next state. -/
def execAll : List Instr → State → Answer
  | [], s => .next s
  | i :: is, s =>
    match exec i s with
    | .next t => execAll is t
    | .fault f => .fault f
    | .refused r => .refused r

end Sys2Proof.Machine
end

