-- ==== Sys2Proof/Certificates/Slice0/Obligations.lean ====
section
/-! DEFINITION. The statements for the provers, from the numbered rules of the spec. An equation `exec i s = .next {s with …}`
says the result and the frame at once: every field not named, all of memory among them, is as it was. A clause that decodes a word is the `Encoding` line of the rule cited; all bit patterns
are the spec's general knowledge G1 (log entry 11), and the other clauses of the statement do not rest on it. -/

open Sys2Proof Sys2Proof.Machine

/-! ### Control transfer -/

/-- 41_control_transfer.md R101. The fault clause, that a FAULT record is written and nothing else changes, is the spec's decision D5
(60_exceptions.md R173, R178; log entry 7). -/
def Obligations.ReturnPopsOrUnderflows : Prop :=
  decode 0x00EE#16 = .instr .ret ∧
  ∀ s : State,
    (s.sp = 0 → exec .ret s = .next { s with fault := ⟨.stackUnderflow, s.pc, 0x00EE#16⟩ }) ∧
    (∀ a, s.sp ≠ 0 → s.stack[s.sp - 1]? = some a → exec .ret s = .next { s with sp := s.sp - 1, pc := a })

/-- 41_control_transfer.md R102, the self-jump corner case included. -/
def Obligations.JumpGoesToAddress : Prop :=
  ∀ nnn : Addr, decode (0x1#4 ++ nnn) = .instr (.jp nnn) ∧
    ∀ s : State,
      exec (.jp nnn) s = .next { s with pc := BitVec.ofNat 16 nnn.toNat } ∧
      (s.pc.toNat < 0x1000 → nnn.toNat = s.pc.toNat % 4096 → exec (.jp nnn) s = .next s)

/-- 41_control_transfer.md R103. The premise `s.sp < s.stack.length` says that slot SP exists, which the invariant `Inv` gives
below the capacity. The fault clause, that a FAULT record is written and nothing else changes, is the spec's decision D5
(60_exceptions.md R172, R178; log entry 7). -/
def Obligations.CallPushesOrOverflows : Prop :=
  ∀ nnn : Addr, decode (0x2#4 ++ nnn) = .instr (.call nnn) ∧
    ∀ s : State,
      (s.sp = s.params.stackDepth →
        exec (.call nnn) s = .next { s with fault := ⟨.stackOverflow, s.pc, 0x2#4 ++ nnn⟩ }) ∧
      (s.sp < s.params.stackDepth → s.sp < s.stack.length →
        exec (.call nnn) s = .next { s with
          stack := s.stack.set s.sp (BitVec.ofNat 16 (s.pc.toNat + 2))
          sp := s.sp + 1
          pc := BitVec.ofNat 16 nnn.toNat })

/-- 41_control_transfer.md, `JP V0, addr`; that the form exists and adds V0 is the spec's decision D8. -/
def Obligations.JumpOffsetAddsV0 : Prop :=
  ∀ (s : State) (nnn : Addr),
    exec (.jpV0 nnn) s = .next { s with pc := BitVec.ofNat 16 (nnn.toNat + (getV s 0#4).toNat) } ∧
    nnn.toNat + (getV s 0#4).toNat ≤ 0x10FE

/-- 41_control_transfer.md R105. -/
def Obligations.SkipIfEqualByte : Prop :=
  ∀ (x : Nibble) (kk : Byte), decode (0x3#4 ++ x ++ kk) = .instr (.seByte x kk) ∧
    ∀ s : State,
      (getV s x = kk → exec (.seByte x kk) s = .next { s with pc := BitVec.ofNat 16 (s.pc.toNat + 4) }) ∧
      (getV s x ≠ kk → exec (.seByte x kk) s = .next { s with pc := BitVec.ofNat 16 (s.pc.toNat + 2) })

/-- 41_control_transfer.md R106. -/
def Obligations.SkipIfNotEqualByte : Prop :=
  ∀ (x : Nibble) (kk : Byte), decode (0x4#4 ++ x ++ kk) = .instr (.sneByte x kk) ∧
    ∀ s : State,
      (getV s x ≠ kk → exec (.sneByte x kk) s = .next { s with pc := BitVec.ofNat 16 (s.pc.toNat + 4) }) ∧
      (getV s x = kk → exec (.sneByte x kk) s = .next { s with pc := BitVec.ofNat 16 (s.pc.toNat + 2) })

/-- 41_control_transfer.md R107. -/
def Obligations.SkipIfEqualRegisters : Prop :=
  ∀ x y : Nibble,
    decode (0x5#4 ++ x ++ y ++ 0x0#4) = .instr (.seReg x y) ∧
    (∀ n : Nibble, n ≠ 0#4 → decode (0x5#4 ++ x ++ y ++ n) = .illegalOpcode (0x5#4 ++ x ++ y ++ n)) ∧
    ∀ s : State,
      (getV s x = getV s y → exec (.seReg x y) s = .next { s with pc := BitVec.ofNat 16 (s.pc.toNat + 4) }) ∧
      (getV s x ≠ getV s y → exec (.seReg x y) s = .next { s with pc := BitVec.ofNat 16 (s.pc.toNat + 2) })

/-- 41_control_transfer.md R108. -/
def Obligations.SkipIfNotEqualRegisters : Prop :=
  ∀ x y : Nibble,
    decode (0x9#4 ++ x ++ y ++ 0x0#4) = .instr (.sneReg x y) ∧
    (∀ n : Nibble, n ≠ 0#4 → decode (0x9#4 ++ x ++ y ++ n) = .illegalOpcode (0x9#4 ++ x ++ y ++ n)) ∧
    ∀ s : State,
      (getV s x ≠ getV s y → exec (.sneReg x y) s = .next { s with pc := BitVec.ofNat 16 (s.pc.toNat + 4) }) ∧
      (getV s x = getV s y → exec (.sneReg x y) s = .next { s with pc := BitVec.ofNat 16 (s.pc.toNat + 2) })

/-- 41_control_transfer.md R101 and R103 together: "call to address A then return restores PC to the instruction immediately
after the call", at any depth below capacity; only the slot used keeps a trace. -/
def Obligations.CallThenReturnRestores : Prop :=
  ∀ (s : State) (nnn : Addr), s.sp < s.params.stackDepth → s.sp < s.stack.length →
    ∃ t, execAll [.call nnn, .ret] s = .next t ∧ t = { s with stack := t.stack, pc := BitVec.ofNat 16 (s.pc.toNat + 2) } ∧
      t.stack.length = s.stack.length ∧ ∀ k, k ≠ s.sp → t.stack[k]? = s.stack[k]?

/-! ### ALU -/

/-- 42_alu.md R111. -/
def Obligations.LoadByteSetsRegister : Prop :=
  ∀ (x : Nibble) (kk : Byte), decode (0x6#4 ++ x ++ kk) = .instr (.ldByte x kk) ∧
    ∀ s : State, ∃ t, exec (.ldByte x kk) s = .next t ∧
      t = { s with v := t.v, pc := BitVec.ofNat 16 (s.pc.toNat + 2) } ∧
      getV t x = kk ∧ ∀ r, r ≠ x → getV t r = getV s r

/-- 42_alu.md R112: the carry is written to VF, after the result. -/
def Obligations.AddByteWithCarry : Prop :=
  ∀ (x : Nibble) (kk : Byte), decode (0x7#4 ++ x ++ kk) = .instr (.addByte x kk) ∧
    ∀ s : State, ∃ t, exec (.addByte x kk) s = .next t ∧
      t = { s with v := t.v, pc := BitVec.ofNat 16 (s.pc.toNat + 2) } ∧
      (x ≠ 15#4 → (getV t x).toNat = ((getV s x).toNat + kk.toNat) % 256) ∧
      getV t 15#4 = (if (getV s x).toNat + kk.toNat > 255 then 1 else 0) ∧
      ∀ r, r ≠ x → r ≠ 15#4 → getV t r = getV s r

/-- 42_alu.md R113. -/
def Obligations.LoadRegisterCopies : Prop :=
  ∀ x y : Nibble, decode (0x8#4 ++ x ++ y ++ 0x0#4) = .instr (.ldReg x y) ∧
    ∀ s : State, ∃ t, exec (.ldReg x y) s = .next t ∧
      t = { s with v := t.v, pc := BitVec.ofNat 16 (s.pc.toNat + 2) } ∧
      getV t x = getV s y ∧ ∀ r, r ≠ x → getV t r = getV s r

/-- 42_alu.md R114, bit by bit; VF is not reset. -/
def Obligations.OrCombinesBits : Prop :=
  ∀ x y : Nibble, decode (0x8#4 ++ x ++ y ++ 0x1#4) = .instr (.orReg x y) ∧
    ∀ s : State, ∃ t, exec (.orReg x y) s = .next t ∧
      t = { s with v := t.v, pc := BitVec.ofNat 16 (s.pc.toNat + 2) } ∧
      (∀ k, (getV t x).getLsbD k = ((getV s x).getLsbD k || (getV s y).getLsbD k)) ∧
      ∀ r, r ≠ x → getV t r = getV s r

/-- 42_alu.md R115, bit by bit. -/
def Obligations.AndCombinesBits : Prop :=
  ∀ x y : Nibble, decode (0x8#4 ++ x ++ y ++ 0x2#4) = .instr (.andReg x y) ∧
    ∀ s : State, ∃ t, exec (.andReg x y) s = .next t ∧
      t = { s with v := t.v, pc := BitVec.ofNat 16 (s.pc.toNat + 2) } ∧
      (∀ k, (getV t x).getLsbD k = ((getV s x).getLsbD k && (getV s y).getLsbD k)) ∧
      ∀ r, r ≠ x → getV t r = getV s r

/-- 42_alu.md R116, bit by bit; with x = y the result is 0. -/
def Obligations.XorCombinesBits : Prop :=
  ∀ x y : Nibble, decode (0x8#4 ++ x ++ y ++ 0x3#4) = .instr (.xorReg x y) ∧
    ∀ s : State, ∃ t, exec (.xorReg x y) s = .next t ∧
      t = { s with v := t.v, pc := BitVec.ofNat 16 (s.pc.toNat + 2) } ∧
      (∀ k, (getV t x).getLsbD k = ((getV s x).getLsbD k != (getV s y).getLsbD k)) ∧
      (x = y → getV t x = 0) ∧
      ∀ r, r ≠ x → getV t r = getV s r

/-- 42_alu.md R117. -/
def Obligations.AddRegistersWithCarry : Prop :=
  ∀ x y : Nibble, decode (0x8#4 ++ x ++ y ++ 0x4#4) = .instr (.addReg x y) ∧
    ∀ s : State, ∃ t, exec (.addReg x y) s = .next t ∧
      t = { s with v := t.v, pc := BitVec.ofNat 16 (s.pc.toNat + 2) } ∧
      (x ≠ 15#4 → (getV t x).toNat = ((getV s x).toNat + (getV s y).toNat) % 256) ∧
      getV t 15#4 = (if (getV s x).toNat + (getV s y).toNat > 255 then 1 else 0) ∧
      ∀ r, r ≠ x → r ≠ 15#4 → getV t r = getV s r

/-- 42_alu.md `SUB Vx, Vy`; that 1 means no borrow is the spec's decision D10. -/
def Obligations.SubWithNoBorrowFlag : Prop :=
  ∀ (x y : Nibble) (s : State), ∃ t, exec (.subReg x y) s = .next t ∧
    t = { s with v := t.v, pc := BitVec.ofNat 16 (s.pc.toNat + 2) } ∧
    (x ≠ 15#4 → (getV t x).toNat = ((getV s x).toNat + 256 - (getV s y).toNat) % 256) ∧
    getV t 15#4 = (if (getV s y).toNat ≤ (getV s x).toNat then 1 else 0) ∧
    ∀ r, r ≠ x → r ≠ 15#4 → getV t r = getV s r

/-- 42_alu.md `SUBN Vx, Vy`; that 1 means no borrow is the spec's decision D10. -/
def Obligations.SubnWithNoBorrowFlag : Prop :=
  ∀ (x y : Nibble) (s : State), ∃ t, exec (.subnReg x y) s = .next t ∧
    t = { s with v := t.v, pc := BitVec.ofNat 16 (s.pc.toNat + 2) } ∧
    (x ≠ 15#4 → (getV t x).toNat = ((getV s y).toNat + 256 - (getV s x).toNat) % 256) ∧
    getV t 15#4 = (if (getV s x).toNat ≤ (getV s y).toNat then 1 else 0) ∧
    ∀ r, r ≠ x → r ≠ 15#4 → getV t r = getV s r

/-- 42_alu.md `SHR Vx {, Vy}` under both settings of the toggle; the Vy form is the spec's decision D14. -/
def Obligations.ShiftRightByToggle : Prop :=
  ∀ (x y : Nibble) (s : State) (src : Byte), src = (if s.params.shiftUsesVy = true then getV s y else getV s x) →
    ∃ t, exec (.shr x y) s = .next t ∧
      t = { s with v := t.v, pc := BitVec.ofNat 16 (s.pc.toNat + 2) } ∧
      (x ≠ 15#4 → (getV t x).toNat = src.toNat / 2) ∧
      (getV t 15#4).toNat = src.toNat % 2 ∧
      ∀ r, r ≠ x → r ≠ 15#4 → getV t r = getV s r

/-- 42_alu.md `SHL Vx {, Vy}` under both settings of the toggle; the Vy form is the spec's decision D14. -/
def Obligations.ShiftLeftByToggle : Prop :=
  ∀ (x y : Nibble) (s : State) (src : Byte), src = (if s.params.shiftUsesVy = true then getV s y else getV s x) →
    ∃ t, exec (.shl x y) s = .next t ∧
      t = { s with v := t.v, pc := BitVec.ofNat 16 (s.pc.toNat + 2) } ∧
      (x ≠ 15#4 → (getV t x).toNat = src.toNat * 2 % 256) ∧
      (getV t 15#4).toNat = src.toNat / 128 ∧
      ∀ r, r ≠ x → r ≠ 15#4 → getV t r = getV s r

/-! ### Random byte and index register -/

/-- 43_index_random.md `RND Vx, byte`. The byte is the FREE VALUE `Config.rndByte` at the model's counter (log entry 4): the
statement holds whatever it is. -/
def Obligations.RandomByteIsMasked : Prop :=
  ∀ (x : Nibble) (kk : Byte) (s : State), ∃ t, exec (.rnd x kk) s = .next t ∧
    t = { s with v := t.v, pc := BitVec.ofNat 16 (s.pc.toNat + 2), rndCount := s.rndCount + 1 } ∧
    getV t x = Config.rndByte s.rndCount &&& kk ∧
    (∀ k, kk.getLsbD k = false → (getV t x).getLsbD k = false) ∧
    (getV t x).toNat ≤ kk.toNat ∧
    ∀ r, r ≠ x → getV t r = getV s r

/-- 43_index_random.md R131. -/
def Obligations.LoadIndexSetsI : Prop :=
  ∀ nnn : Addr, decode (0xA#4 ++ nnn) = .instr (.ldI nnn) ∧
    ∀ s : State, exec (.ldI nnn) s = .next { s with i := nnn, pc := BitVec.ofNat 16 (s.pc.toNat + 2) }

/-- 43_index_random.md `ADD I, Vx` under both settings of the toggle; that overflow is the carry out of 12 bits is the spec's
decision D15. -/
def Obligations.AddIndexByToggle : Prop :=
  ∀ (x : Nibble) (s : State), ∃ t, exec (.addI x) s = .next t ∧
    t = { s with v := t.v, i := BitVec.ofNat 12 (s.i.toNat + (getV s x).toNat), pc := BitVec.ofNat 16 (s.pc.toNat + 2) } ∧
    (s.params.addISetsVF = true → getV t 15#4 = if s.i.toNat + (getV s x).toNat > 0xFFF then 1 else 0) ∧
    (s.params.addISetsVF = false → t.v = s.v) ∧
    ∀ r, r ≠ 15#4 → getV t r = getV s r

/-- 43_index_random.md R133. -/
def Obligations.LoadFontAddress : Prop :=
  ∀ x : Nibble, decode (0xF#4 ++ x ++ 0x29#8) = .instr (.ldF x) ∧
    ∀ s : State, exec (.ldF x) s =
      .next { s with i := BitVec.ofNat 12 (5 * ((getV s x).toNat % 16)), pc := BitVec.ofNat 16 (s.pc.toNat + 2) }

/-! ### Display -/

/-- 44_display.md R141. -/
def Obligations.ClearBlanksDisplay : Prop :=
  decode 0x00E0#16 = .instr .cls ∧
  ∀ s : State, ∃ t, exec .cls s = .next t ∧
    t = { s with fb := t.fb, drawFlag := true, pc := BitVec.ofNat 16 (s.pc.toNat + 2) } ∧
    t.fb.length = s.params.displayH ∧
    ∀ row ∈ t.fb, row.length = s.params.displayW ∧ ∀ b ∈ row, b = false

/-- 44_display.md section on `DRW` and its collision law, for every display within the bounds of the parameters: the addressed
pixels are inverted, the others kept, VF says whether one of them was set, the flag whether there was one. The sprite format and
the wraparound of every pixel are the spec's decisions D19 and D20. -/
def Obligations.DrawObeysCollisionLaw : Prop :=
  ∀ (s : State) (x y n : Nibble), s.params.WF → FrameBuffer.WF s.params s.fb →
    ∃ t, exec (.drw x y n) s = .next t ∧
      t = { s with v := t.v, fb := t.fb, drawFlag := t.drawFlag, pc := BitVec.ofNat 16 (s.pc.toNat + 2) } ∧
      FrameBuffer.WF s.params t.fb ∧
      (∀ px, Addressed s x y n px → FrameBuffer.get t.fb px = !FrameBuffer.get s.fb px) ∧
      (∀ px, ¬ Addressed s x y n px → FrameBuffer.get t.fb px = FrameBuffer.get s.fb px) ∧
      ((∃ px, Addressed s x y n px ∧ FrameBuffer.get s.fb px = true) → getV t 15#4 = 1) ∧
      ((¬ ∃ px, Addressed s x y n px ∧ FrameBuffer.get s.fb px = true) → getV t 15#4 = 0) ∧
      (t.drawFlag = true ↔ s.drawFlag = true ∨ ∃ px, Addressed s x y n px) ∧
      ∀ r, r ≠ 15#4 → getV t r = getV s r

/-- 44_display.md, the document's example: "drawing the same sprite twice at the same coordinates clears every pixel it set", so
the frame buffer is restored; VF after the second draw is 1 exactly when an addressed pixel was off before the first. The
coordinates are registers other than VF, which the first draw overwrites. -/
def Obligations.DrawTwiceRestoresDisplay : Prop :=
  ∀ (s : State) (x y n : Nibble), s.params.WF → FrameBuffer.WF s.params s.fb → x ≠ 15#4 → y ≠ 15#4 →
    ∃ t, execAll [.drw x y n, .drw x y n] s = .next t ∧ t.fb = s.fb ∧
      (getV t 15#4 = 1 ↔ ∃ px, Addressed s x y n px ∧ FrameBuffer.get s.fb px = false)

/-! ### Keypad and timers -/

/-- 45_keypad_timers.md `SKP Vx`; that the key number is the low nibble is the spec's decision D16. -/
def Obligations.SkipIfKeyPressed : Prop :=
  ∀ (x : Nibble) (s : State),
    (s.keys.getLsbD ((getV s x).toNat % 16) = true →
      exec (.skp x) s = .next { s with pc := BitVec.ofNat 16 (s.pc.toNat + 4) }) ∧
    (s.keys.getLsbD ((getV s x).toNat % 16) = false →
      exec (.skp x) s = .next { s with pc := BitVec.ofNat 16 (s.pc.toNat + 2) })

/-- 45_keypad_timers.md `SKNP Vx`; that the key number is the low nibble is the spec's decision D16. -/
def Obligations.SkipIfKeyNotPressed : Prop :=
  ∀ (x : Nibble) (s : State),
    (s.keys.getLsbD ((getV s x).toNat % 16) = false →
      exec (.sknp x) s = .next { s with pc := BitVec.ofNat 16 (s.pc.toNat + 4) }) ∧
    (s.keys.getLsbD ((getV s x).toNat % 16) = true →
      exec (.sknp x) s = .next { s with pc := BitVec.ofNat 16 (s.pc.toNat + 2) })

/-- 45_keypad_timers.md R153: the read does not change the timer. -/
def Obligations.ReadDelayTimer : Prop :=
  ∀ x : Nibble, decode (0xF#4 ++ x ++ 0x07#8) = .instr (.ldVxDT x) ∧
    ∀ s : State, ∃ t, exec (.ldVxDT x) s = .next t ∧
      t = { s with v := t.v, pc := BitVec.ofNat 16 (s.pc.toNat + 2) } ∧
      getV t x = s.dt ∧ ∀ r, r ≠ x → getV t r = getV s r

/-- 45_keypad_timers.md R154: the countdown starts from the written value at the next tick, and 0 stops the timer. -/
def Obligations.WriteDelayTimer : Prop :=
  ∀ x : Nibble, decode (0xF#4 ++ x ++ 0x15#8) = .instr (.ldDTVx x) ∧
    ∀ s : State, ∃ t, exec (.ldDTVx x) s = .next t ∧
      t = { s with dt := getV s x, pc := BitVec.ofNat 16 (s.pc.toNat + 2) } ∧
      (Enabled s → (tick t).dt.toNat = (getV s x).toNat - 1)

/-- 45_keypad_timers.md `LD ST, Vx`, with SOUND_ON; that the form exists is the spec's decision D9. -/
def Obligations.WriteSoundTimer : Prop :=
  ∀ (x : Nibble) (s : State), ∃ t, exec (.ldSTVx x) s = .next t ∧
    t = { s with st := getV s x, pc := BitVec.ofNat 16 (s.pc.toNat + 2) } ∧
    (soundOn t = true ↔ getV s x ≠ 0)

/-- 45_keypad_timers.md `LD Vx, K` and the check of 40_step_cycle.md section 2 that follows it: the step that executes it only
sets WAIT and advances PC (decision D17); then a step with no key down changes nothing, and one with keys down stores the least
pressed index (decision D18), clears WAIT and leaves PC alone. A pending step request is taken off the schedule (log entry 3). -/
def Obligations.KeyWaitStartsAndResolves : Prop :=
  (∀ (x : Nibble) (s : State),
    exec (.ldVxK x) s = .next { s with wait := ⟨true, x⟩, pc := BitVec.ofNat 16 (s.pc.toNat + 2) }) ∧
  ∀ s : State, StepIsNext s → Enabled s → s.wait.valid = true →
    ((∀ k, k < 16 → s.keys.getLsbD k = false) → step s = .next { s with schedule := s.schedule.tail }) ∧
    (∀ k, k < 16 → s.keys.getLsbD k = true → (∀ j, j < k → s.keys.getLsbD j = false) →
      ∃ t, step s = .next t ∧ t = { s with v := t.v, wait := ⟨false, s.wait.reg⟩, schedule := s.schedule.tail } ∧
        (getV t s.wait.reg).toNat = k ∧ ∀ r, r ≠ s.wait.reg → getV t r = getV s r)

/-! ### Memory transfer -/

/-- 46_memory_transfer.md R161: the three bytes stored, every other byte and I kept, under every setting. -/
def Obligations.StoreDecimalDigits : Prop :=
  ∀ x : Nibble, decode (0xF#4 ++ x ++ 0x33#8) = .instr (.ldB x) ∧
    ∀ s : State, ∃ t, exec (.ldB x) s = .next t ∧
      t = { s with mem := t.mem, pc := BitVec.ofNat 16 (s.pc.toNat + 2) } ∧
      (readMem t s.i.toNat).toNat = (getV s x).toNat / 100 ∧
      (readMem t (s.i.toNat + 1)).toNat = (getV s x).toNat / 10 % 10 ∧
      (readMem t (s.i.toNat + 2)).toNat = (getV s x).toNat % 10 ∧
      ∀ a, (∀ k, k < 3 → a % 4096 ≠ (s.i.toNat + k) % 4096) → readMem t a = readMem s a

/-- 46_memory_transfer.md `LD [I], Vx` under both settings of the toggle; the amount I moves is the spec's decision D13. -/
def Obligations.StoreRegistersInclusive : Prop :=
  ∀ (x : Nibble) (s : State), ∃ t, exec (.storeRegs x) s = .next t ∧
    t = { s with mem := t.mem, i := t.i, pc := BitVec.ofNat 16 (s.pc.toNat + 2) } ∧
    (∀ k : Nibble, k.toNat ≤ x.toNat → readMem t (s.i.toNat + k.toNat) = getV s k) ∧
    (∀ a, (∀ k, k ≤ x.toNat → a % 4096 ≠ (s.i.toNat + k) % 4096) → readMem t a = readMem s a) ∧
    t.i = (if s.params.memIncrementsI = true then BitVec.ofNat 12 (s.i.toNat + x.toNat + 1) else s.i)

/-- 46_memory_transfer.md `LD Vx, [I]` under both settings of the toggle; the amount I moves is the spec's decision D13. -/
def Obligations.LoadRegistersInclusive : Prop :=
  ∀ (x : Nibble) (s : State), ∃ t, exec (.loadRegs x) s = .next t ∧
    t = { s with v := t.v, i := t.i, pc := BitVec.ofNat 16 (s.pc.toNat + 2) } ∧
    (∀ k : Nibble, k.toNat ≤ x.toNat → getV t k = readMem s (s.i.toNat + k.toNat)) ∧
    (∀ k : Nibble, x.toNat < k.toNat → getV t k = getV s k) ∧
    t.i = (if s.params.memIncrementsI = true then BitVec.ofNat 12 (s.i.toNat + x.toNat + 1) else s.i)

/-- 20_memory.md section 6, "memory round-trip": after `LD [I], V0` at `a` with V0 = v, any change of V0 and I = `a` again,
`LD V0, [I]` gives V0 = v. -/
def Obligations.MemoryRoundTrip : Prop :=
  ∀ (s : State) (a : Addr) (b : Byte),
    ∃ t, execAll [.ldI a, .storeRegs 0#4, .ldByte 0#4 b, .ldI a, .loadRegs 0#4] s = .next t ∧ getV t 0#4 = getV s 0#4

/-! ### Encoding -/

/-- Every instruction, with every operand at every value, decodes back from its word. -/
def Obligations.DecodeAfterEncode : Prop := ∀ i : Instr, decode (encode i) = .instr i

/-- Every word has one meaning: the instruction it decodes to has that word and no other. -/
def Obligations.EncodeAfterDecode : Prop := ∀ (w : Word) (i : Instr), decode w = .instr i → encode i = w

/-- The decoder agrees with the match and mask columns of 30_encoding.md section 3: a word decodes to an instruction of row k
exactly when it matches row k, and to `illegalOpcode` exactly when it matches no row. The patterns are the spec's general
knowledge (G1). -/
def Obligations.DecodeAgreesWithTable : Prop :=
  ∀ w : Word,
    (∀ k, (∃ i, decode w = .instr i ∧ i.row = k) ↔ ∃ m, opcodeRow k = some m ∧ w &&& m.2 = m.1) ∧
    (decode w = .illegalOpcode w ↔ ∀ k m, opcodeRow k = some m → w &&& m.2 ≠ m.1)

/-- Words written out from the patterns of the table, with the instructions they stand for, one per family, and illegal ones. -/
def Obligations.SampleWordsDecodeRight : Prop :=
  decode 0x1ABC#16 = .instr (.jp 0xABC) ∧ decode 0x5AB0#16 = .instr (.seReg 0xA 0xB) ∧
  decode 0x8127#16 = .instr (.subnReg 1 2) ∧ decode 0xC5F0#16 = .instr (.rnd 5 0xF0) ∧
  decode 0xD125#16 = .instr (.drw 1 2 5) ∧ decode 0xE3A1#16 = .instr (.sknp 3) ∧
  decode 0xF31E#16 = .instr (.addI 3) ∧ decode 0xF365#16 = .instr (.loadRegs 3) ∧
  decode 0x0000#16 = .illegalOpcode 0x0000#16 ∧ decode 0x812F#16 = .illegalOpcode 0x812F#16

/-! ### The step -/

/-- 40_step_cycle.md sections 3 to 5: when the machine is about to fetch and the word at PC decodes to `i`, the step is `exec i`
and nothing more; a pending step request is taken off the schedule first (log entry 3). -/
def Obligations.StepRunsDecodedInstruction : Prop :=
  (∀ (s : State) (i : Instr), Fetching s → decode (fetchedWord s) = .instr i → step s = exec i s) ∧
  ∀ (s : State) (i : Instr) (rest : List Event), s.schedule = .step :: rest → Enabled s → s.wait.valid = false →
    decode (fetchedWord s) = .instr i → step s = exec i { s with schedule := rest }

/-- 60_exceptions.md section 1, IllegalOpcode: a fetched word that matches no row raises it, and FAULT records pc0 and the word. That
nothing else changes, PC included, and that there is a record, is the spec's decision D5 (log entry 7). A
pending step request is taken off the schedule (log entry 3). -/
def Obligations.UnmatchedWordFaults : Prop :=
  faultBits .illegalOpcode = 1 ∧
  ∀ s : State, StepIsNext s → Enabled s → s.wait.valid = false →
    (∀ k m, opcodeRow k = some m → fetchedWord s &&& m.2 ≠ m.1) →
    step s = .next { s with fault := ⟨.illegalOpcode, s.pc, fetchedWord s⟩, schedule := s.schedule.tail }

/-- 60_exceptions.md section 1, StackOverflow and StackUnderflow: `CALL` at `SP == STACK_DEPTH` raises StackOverflow, `RET` at `SP == 0` StackUnderflow, and no
instruction raises a fault otherwise; the whole effect is the record of the code, pc0 and the instruction's word, which is the spec's
decision D5 (log entry 7). -/
def Obligations.OnlyCallAndReturnFault : Prop :=
  faultBits .stackOverflow = 2 ∧ faultBits .stackUnderflow = 3 ∧
  (∀ (s : State) (nnn : Addr), s.sp = s.params.stackDepth →
    exec (.call nnn) s = .next { s with fault := ⟨.stackOverflow, s.pc, 0x2#4 ++ nnn⟩ }) ∧
  (∀ s : State, s.sp = 0 → exec .ret s = .next { s with fault := ⟨.stackUnderflow, s.pc, 0x00EE#16⟩ }) ∧
  ∀ (i : Instr) (s t : State), s.sp ≤ s.params.stackDepth → exec i s = .next t → t.fault ≠ s.fault →
    (s.sp = s.params.stackDepth ∧ ∃ nnn, i = .call nnn) ∨ (s.sp = 0 ∧ i = .ret)

/-- 60_exceptions.md section 3, "frozen": while a fault is recorded, a step or tick changes nothing, and whatever the host requests, only what
the host itself writes (KEYS, RUN, DRAW_FLAG, the schedule) can change. The gate of the tick is the spec's
decision D23, the schedule the model's choice (log entries 3, 6). -/
def Obligations.FaultFreezesMachine : Prop :=
  ∀ s : State, s.fault.code ≠ .none →
    (∀ t, step s = .next t →
      t = { s with keys := t.keys, run := t.run, drawFlag := t.drawFlag, schedule := s.schedule.tail }) ∧
    ((s.schedule = [] ∨ ∃ rest, s.schedule = .step :: rest ∨ s.schedule = .tick :: rest) →
      step s = .next { s with schedule := s.schedule.tail })

/-- 10_state.md, `Halted` is terminal: no operation of the machine and no request of the host leaves Halted, and nothing but KEYS, DRAW_FLAG and
the schedule can change in it (the spec's decision D30; the schedule is the model's choice, log entry 3). -/
def Obligations.HaltedIsTerminal : Prop :=
  ∀ s : State, s.run = .halted → ∃ t, step s = .next t ∧ t.run = .halted ∧
    t = { s with keys := t.keys, drawFlag := t.drawFlag, schedule := s.schedule.tail }

/-- 60_exceptions.md section 7, the table of transitions, and section 6, the keypad write and the display acknowledge: what each
request of the host does. That a redundant request has no effect is the spec's decision D30. -/
def Obligations.HostRequestsDoOnlyTheirOwn : Prop :=
  ∀ (s : State) (rest : List Event),
    (s.schedule = .pause :: rest → step s = .next { s with
      run := (if s.run = .running then .paused else s.run), schedule := rest }) ∧
    (s.schedule = .resume :: rest → step s = .next { s with
      run := (if s.run = .paused then .running else s.run), schedule := rest }) ∧
    (s.schedule = .quit :: rest → step s = .next { s with run := .halted, schedule := rest }) ∧
    (∀ k, s.schedule = .keys k :: rest → step s = .next { s with keys := k, schedule := rest }) ∧
    (s.schedule = .ackDraw :: rest → step s = .next { s with drawFlag := false, schedule := rest })

/-- 60_exceptions.md section 5: a tick lowers both timers by one, floored at 0, exactly when the machine runs without a fault,
whether or not a key is awaited. 40_step_cycle.md section 1: a tick or a step that is not enabled, be the machine paused, halted or
faulted, changes nothing; the request is taken off the schedule, and with none pending the next operation is a step (log entry 3).
The gate on FAULT and the treatment of a request that is not enabled are the spec's decisions D5, D23 and D30. -/
def Obligations.TickCountsDownWhenEnabled : Prop :=
  (∀ (s : State) (rest : List Event), s.schedule = .tick :: rest → Enabled s →
    ∃ t, step s = .next t ∧ t = { s with dt := t.dt, st := t.st, schedule := rest } ∧
      t.dt.toNat = s.dt.toNat - 1 ∧ t.st.toNat = s.st.toNat - 1) ∧
  ∀ s : State, ¬ Enabled s →
    (s.schedule = [] → step s = .next s) ∧
    ∀ rest, s.schedule = .step :: rest ∨ s.schedule = .tick :: rest → step s = .next { s with schedule := rest }

/-- 60_exceptions.md section 7, what a pause preserves: in every paused state every request of the host gives a next state in which
everything is held but what the host itself writes (KEYS, RUN, DRAW_FLAG, the schedule), RUN is changed by resume and quit alone,
and a step or tick, or the step of an empty schedule, holds all of them. The gate is the spec's decision D30, the schedule the
model's choice (log entry 3). -/
def Obligations.PauseHoldsEverything : Prop :=
  ∀ s : State, s.run = .paused → ∃ t, step s = .next t ∧
    t = { s with keys := t.keys, run := t.run, drawFlag := t.drawFlag, schedule := s.schedule.tail } ∧
    (t.run = s.run ∨ s.schedule = .resume :: s.schedule.tail ∨ s.schedule = .quit :: s.schedule.tail) ∧
    (StepIsNext s ∨ s.schedule = .tick :: s.schedule.tail → t = { s with schedule := s.schedule.tail })

/-- 70_reset_and_hazards.md section 3 case 3 (decision D31): at a self-jump a Step leaves the whole state unchanged; a pending step
request is taken off the schedule (log entry 3). -/
def Obligations.SelfJumpIsQuiescent : Prop :=
  ∀ s : State, Enabled s → s.wait.valid = false → AtSelfJump s →
    (s.schedule = [] → step s = .next s) ∧
    ∀ rest, s.schedule = .step :: rest → step s = .next { s with schedule := rest }

/-! ### Rules over all instructions -/

/-- 10_state.md section 3: VF is written only by the listed instructions, as a flag that is 0 or 1, or by naming it as the
destination. -/
def Obligations.FlagRegisterWriters : Prop :=
  ∀ (i : Instr) (s t : State), exec i s = .next t →
    (writesFlag s.params i → getV t 15#4 = 0 ∨ getV t 15#4 = 1) ∧
    (¬ writesFlag s.params i → ¬ namesDest i 15#4 → getV t 15#4 = getV s 15#4)

/-- 10_state.md section 8, the column "written by", for every instruction that answers a next state: what the host alone writes
and the parameters are never written, and each other piece of state only by its listed writers; PC has no clause, since every
instruction may write it. VF's writers are those of section 3. STACK is written by CALL alone, FAULT only by `raise`, which CALL
and RET are the only instructions to reach. The schedule and the counter of RND are the model's own (log entries 3, 4). -/
def Obligations.EachStateHasItsWriters : Prop :=
  ∀ (i : Instr) (s t : State), exec i s = .next t →
    (t.keys = s.keys ∧ t.run = s.run ∧ t.params = s.params ∧ t.schedule = s.schedule) ∧
    (∀ r, ¬ namesDest i r → ¬ (r = 15#4 ∧ writesFlag s.params i) → getV t r = getV s r) ∧
    (¬ writesIndex s.params i → t.i = s.i) ∧
    (t.stack = s.stack ∨ ∃ nnn, i = .call nnn) ∧
    (t.sp = s.sp ∨ i = .ret ∨ ∃ nnn, i = .call nnn) ∧
    (t.fault = s.fault ∨ i = .ret ∨ ∃ nnn, i = .call nnn) ∧
    (t.dt = s.dt ∨ ∃ x, i = .ldDTVx x) ∧
    (t.st = s.st ∨ ∃ x, i = .ldSTVx x) ∧
    (t.mem = s.mem ∨ ∃ x, i = .ldB x ∨ i = .storeRegs x) ∧
    ((t.fb = s.fb ∧ t.drawFlag = s.drawFlag) ∨ i = .cls ∨ ∃ x y n, i = .drw x y n) ∧
    (s.drawFlag = true → t.drawFlag = true) ∧
    (t.wait = s.wait ∨ ∃ x, i = .ldVxK x) ∧
    (t.rndCount = s.rndCount ∨ ∃ x kk, i = .rnd x kk)

/-- 10_state.md section 7: KEYS is read by `SKP` and `SKNP` alone: on every other instruction two machines that differ only in
the keypad answer alike and still differ only in it. On RND both draw the same free byte (the model's choice, log entry 4). -/
def Obligations.OnlyKeySkipsReadKeypad : Prop :=
  ∀ (i : Instr) (s t : State) (k : Word), (∀ x, i ≠ .skp x ∧ i ≠ .sknp x) → exec i s = .next t →
    exec i { s with keys := k } = .next { t with keys := k }

/-- 10_state.md section 5: no instruction reads ST: two machines that differ only in the sound timer answer alike, and differ
only in it afterwards, or, after `LD ST, Vx`, not at all. On RND both draw the same free byte (the model's choice, log entry 4). -/
def Obligations.SoundTimerIsUnread : Prop :=
  ∀ (i : Instr) (s t : State) (b : Byte), exec i s = .next t →
    ((∀ x, i ≠ .ldSTVx x) → exec i { s with st := b } = .next { t with st := b }) ∧
    ((∃ x, i = .ldSTVx x) → exec i { s with st := b } = .next t)

/-! ### Launch and invariant -/

/-- 70_reset_and_hazards.md section 1: the values of the launch state with an empty image, for the default parameters of
00_scope.md section 3, written out. That the parameters stand in State, the counter and the empty schedule are the model's (log
entries 1, 3, 4), and so is that the launch state is State.reset (log entry 2). -/
def Obligations.ResetIsLaunchState : Prop :=
  Cleared ⟨16, 64, 32, false, false, true⟩ State.reset ∧ State.reset.pc = 0x0200 ∧ State.reset.run = .running ∧
  (∀ a, a < 80 → readMem State.reset a = defaultFont.getD a 0) ∧
  (∀ a, 80 ≤ a → a < 4096 → readMem State.reset a = 0)

/-- 70_reset_and_hazards.md section 1, reset: every piece of state is zero, for any parameters; only RUN is not given (R203). The
function `afterReset` is the model's form of reset, RUN its argument (log entry 13). -/
def Obligations.ResetZeroesEverything : Prop :=
  ∀ (p : Params) (run : RunState),
    Cleared p (afterReset p run) ∧ (afterReset p run).pc = 0x0000 ∧ (afterReset p run).run = run ∧
    ∀ a, readMem (afterReset p run) a = 0

/-- 60_exceptions.md, the load-time errors: an image of more than 3584 bytes is ImageTooLarge, one that cannot be obtained ImageUnreadable, and
neither gives a machine state; an image of up to 3584 bytes loads. The function `load` is the model's form of the loader (log
entry 13). -/
def Obligations.LoadFailsByName : Prop :=
  ∀ (font : List Byte) (s : State),
    load font none s = .error .imageUnreadable ∧
    (∀ image, image.length > 4096 - 0x200 → load font (some image) s = .error .imageTooLarge) ∧
    (∀ image, image.length ≤ 4096 - 0x200 → ∃ t, load font (some image) s = .ok t)

/-- 70_reset_and_hazards.md sections 1 and 2: reset and a successful load, whatever RUN was before it, give the launch state of
the image and the font, which meets the invariant. `afterReset` and `load` are the model's form of reset and loader (log entry
13). -/
def Obligations.LoadGivesLaunchState : Prop :=
  ∀ (p : Params) (run : RunState) (font image : List Byte), p.WF → FontWF font → ImageFits image →
    ∃ t, load font (some image) (afterReset p run) = .ok t ∧ Inv t ∧
      Cleared p t ∧ t.pc = 0x0200 ∧ t.run = .running ∧
      (∀ a, a < 80 → readMem t a = font.getD a 0) ∧
      (∀ k, k < image.length → readMem t (0x200 + k) = image.getD k 0) ∧
      (∀ a, 80 ≤ a → a < 0x200 → readMem t a = 0) ∧
      (∀ a, 0x200 + image.length ≤ a → a < 4096 → readMem t a = 0)

/-- The invariant holds at reset. -/
def Obligations.ResetMeetsInvariant : Prop := Inv State.reset

/-- From every state of the invariant the step answers a next state, never a fault or a refusal of the model, and the next state
meets the invariant: memory stays canonical, the stack pointer within the stack, the frame buffer of its size, the fault record
coherent. Over every instruction, every request of the host and every parameter setting. -/
def Obligations.StepKeepsInvariantAndAnswers : Prop := ∀ s : State, Inv s → ∃ t, step s = .next t ∧ Inv t
end

