-- ==== Sys2Proof/Laws/Decode.lean ====
section
/-! SUPPORT. The fields of the three shapes of instruction word, and a word as its four nibbles. -/

namespace Sys2Proof

/-! ### `NNN`: opcode and 12-bit immediate -/

@[simp] theorem fieldTop_nnn (t : Nibble) (a : Addr) : fieldTop (t ++ a) = t := by
  unfold fieldTop; ext i hi; simp; grind

@[simp] theorem fieldNNN_nnn (t : Nibble) (a : Addr) : fieldNNN (t ++ a) = a := by
  unfold fieldNNN; ext i hi; simp; grind

/-! ### `XKK`: opcode, register, byte -/

@[simp] theorem fieldTop_xkk (t x : Nibble) (k : Byte) : fieldTop (t ++ x ++ k) = t := by
  unfold fieldTop; ext i hi; simp; grind

@[simp] theorem fieldX_xkk (t x : Nibble) (k : Byte) : fieldX (t ++ x ++ k) = x := by
  unfold fieldX; ext i hi; simp; grind

@[simp] theorem fieldKK_xkk (t x : Nibble) (k : Byte) : fieldKK (t ++ x ++ k) = k := by
  unfold fieldKK; ext i hi; simp; grind

/-! ### `XY`, `XYN`: four nibbles -/

@[simp] theorem fieldTop_xyn (t x y n : Nibble) : fieldTop (t ++ x ++ y ++ n) = t := by
  unfold fieldTop; ext i hi; simp; grind

@[simp] theorem fieldX_xyn (t x y n : Nibble) : fieldX (t ++ x ++ y ++ n) = x := by
  unfold fieldX; ext i hi; simp; grind

@[simp] theorem fieldY_xyn (t x y n : Nibble) : fieldY (t ++ x ++ y ++ n) = y := by
  unfold fieldY; ext i hi; simp; grind

@[simp] theorem fieldN_xyn (t x y n : Nibble) : fieldN (t ++ x ++ y ++ n) = n := by
  unfold fieldN; ext i hi; simp; grind

/-- A word is its opcode nibble and its 12-bit immediate. -/
theorem word_eq_nnn (w : Word) : fieldTop w ++ fieldNNN w = w := by
  unfold fieldTop fieldNNN; ext i hi; simp; grind

/-- A word is its opcode nibble, its x and its byte. -/
theorem word_eq_xkk (w : Word) : fieldTop w ++ fieldX w ++ fieldKK w = w := by
  unfold fieldTop fieldX fieldKK; ext i hi; simp; grind

/-- A word is its four nibbles (30_encoding.md R70). -/
theorem word_eq_xyn (w : Word) : fieldTop w ++ fieldX w ++ fieldY w ++ fieldN w = w := by
  unfold fieldTop fieldX fieldY fieldN; ext i hi; simp; grind

/-- The 16 values of a nibble, for a case split. -/
theorem nibble_cases (a : Nibble) :
    a = 0 ∨ a = 1 ∨ a = 2 ∨ a = 3 ∨ a = 4 ∨ a = 5 ∨ a = 6 ∨ a = 7 ∨
    a = 8 ∨ a = 9 ∨ a = 10 ∨ a = 11 ∨ a = 12 ∨ a = 13 ∨ a = 14 ∨ a = 15 := by
  revert a; decide

/-- The value of a word of two bytes, high byte first (20_memory.md R52). -/
theorem toNat_bytes (hi lo : Byte) : (hi ++ lo).toNat = hi.toNat * 256 + lo.toNat := by
  rw [BitVec.toNat_append, ← Nat.shiftLeft_add_eq_or_of_lt lo.isLt, Nat.shiftLeft_eq]

/-- The value of a word of the shape `NNN`. -/
theorem toNat_nnn (t : Nibble) (a : Addr) : (t ++ a).toNat = t.toNat * 4096 + a.toNat := by
  rw [BitVec.toNat_append, ← Nat.shiftLeft_add_eq_or_of_lt a.isLt, Nat.shiftLeft_eq]

/-! ### Masks -/

theorem nibble_and_ones (t : Nibble) : t &&& 0xF#4 = t := by revert t; decide

theorem byte_and_ones (k : Byte) : k &&& 0xFF#8 = k := by revert k; decide

/-- Masking a word of the shape `NNN` by its opcode nibble. -/
theorem mask_nnn (t : Nibble) (a : Addr) : (t ++ a) &&& (0xF000#16) = t ++ 0x000#12 := by
  refine (BitVec.and_append (x₁ := t) (x₂ := 0xF#4) (y₁ := a) (y₂ := 0x000#12)).trans ?_
  simp only [nibble_and_ones, BitVec.and_zero]

/-- Masking a word of the shape `XKK` by its opcode nibble. -/
theorem mask_xkk (t x : Nibble) (k : Byte) : (t ++ x ++ k) &&& (0xF000#16) = t ++ 0x0#4 ++ 0x00#8 := by
  refine (BitVec.and_append (x₁ := t ++ x) (x₂ := 0xF#4 ++ 0x0#4) (y₁ := k) (y₂ := 0x00#8)).trans ?_
  simp only [BitVec.and_append, nibble_and_ones, BitVec.and_zero]

/-- Masking a word of the shape `XYN` by its opcode nibble. -/
theorem mask_xyn (t x y n : Nibble) : (t ++ x ++ y ++ n) &&& (0xF000#16) = t ++ 0x0#4 ++ 0x0#4 ++ 0x0#4 := by
  refine (BitVec.and_append (x₁ := t ++ x ++ y) (x₂ := 0xF#4 ++ 0x0#4 ++ 0x0#4) (y₁ := n) (y₂ := 0x0#4)).trans ?_
  simp only [BitVec.and_append, nibble_and_ones, BitVec.and_zero]

/-- Masking a word of the shape `XY` by its first and last nibble. -/
theorem mask_xy (t x y n : Nibble) : (t ++ x ++ y ++ n) &&& (0xF00F#16) = t ++ 0x0#4 ++ 0x0#4 ++ n := by
  refine (BitVec.and_append (x₁ := t ++ x ++ y) (x₂ := 0xF#4 ++ 0x0#4 ++ 0x0#4) (y₁ := n) (y₂ := 0xF#4)).trans ?_
  simp only [BitVec.and_append, nibble_and_ones, BitVec.and_zero]

/-- Masking a word of the shape `X` by its first nibble and last byte. -/
theorem mask_x (t x : Nibble) (k : Byte) : (t ++ x ++ k) &&& (0xF0FF#16) = t ++ 0x0#4 ++ k := by
  refine (BitVec.and_append (x₁ := t ++ x) (x₂ := 0xF#4 ++ 0x0#4) (y₁ := k) (y₂ := 0xFF#8)).trans ?_
  simp only [BitVec.and_append, nibble_and_ones, BitVec.and_zero, byte_and_ones]

/-- What a match on the opcode nibble says. -/
theorem fields_of_mask_F000 {w v : Word} (h : w &&& 0xF000#16 = v) : fieldTop w = fieldTop v := by
  rw [← h, ← word_eq_xkk w, mask_xkk]; simp

/-- What a match on the first and last nibble says. -/
theorem fields_of_mask_F00F {w v : Word} (h : w &&& 0xF00F#16 = v) : fieldTop w = fieldTop v ∧ fieldN w = fieldN v := by
  rw [← h, ← word_eq_xyn w, mask_xy]; simp

/-- What a match on the first nibble and last byte says. -/
theorem fields_of_mask_F0FF {w v : Word} (h : w &&& 0xF0FF#16 = v) : fieldTop w = fieldTop v ∧ fieldKK w = fieldKK v := by
  rw [← h, ← word_eq_xkk w, mask_x]; simp

/-! ### What each part of the decoder can answer -/

theorem decode_top0 {w : Word} (h : fieldTop w = 0x0) : decode w = decodeGroup0 w := by simp [decode, h]
theorem decode_top5 {w : Word} (h : fieldTop w = 0x5) : decode w = decodeN0 w (.seReg (fieldX w) (fieldY w)) := by
  simp [decode, h]
theorem decode_top8 {w : Word} (h : fieldTop w = 0x8) : decode w = decodeGroup8 w := by simp [decode, h]
theorem decode_top9 {w : Word} (h : fieldTop w = 0x9) : decode w = decodeN0 w (.sneReg (fieldX w) (fieldY w)) := by
  simp [decode, h]
theorem decode_topE {w : Word} (h : fieldTop w = 0xE) : decode w = decodeGroupE w := by simp [decode, h]
theorem decode_topF {w : Word} (h : fieldTop w = 0xF) : decode w = decodeGroupF w := by simp [decode, h]

theorem decodeGroup0_cases (w : Word) :
    (w = 0x00E0#16 ∧ decodeGroup0 w = .instr .cls) ∨ (w = 0x00EE#16 ∧ decodeGroup0 w = .instr .ret) ∨
    (w ≠ 0x00E0#16 ∧ w ≠ 0x00EE#16 ∧ decodeGroup0 w = .illegalOpcode w) := by
  unfold decodeGroup0; grind

theorem decodeN0_cases (w : Word) (i : Instr) :
    (fieldN w = 0 ∧ decodeN0 w i = .instr i) ∨ (fieldN w ≠ 0 ∧ decodeN0 w i = .illegalOpcode w) := by
  unfold decodeN0; grind

end Sys2Proof
end

