-- ==== Sys2Proof/Laws/FrameBuffer.lean ====
section
/-! SUPPORT. The laws of the frame buffer: one inversion, a list of inversions, the pixels of a sprite. -/

namespace Sys2Proof.Machine

/-! ### One pixel -/

theorem FrameBuffer.get_toggle (fb : FrameBuffer) (p q : Nat × Nat) (hp : FrameBuffer.has fb p = true) :
    FrameBuffer.get (FrameBuffer.toggle fb p) q = if p = q then !FrameBuffer.get fb q else FrameBuffer.get fb q := by
  obtain ⟨px, py⟩ := p
  obtain ⟨qx, qy⟩ := q
  simp only [FrameBuffer.has, FrameBuffer.get, FrameBuffer.toggle, List.getD_eq_getElem?_getD, decide_eq_true_eq,
    List.getElem?_modify, Prod.mk.injEq] at *
  by_cases hy : py = qy
  · subst hy
    rcases h : fb[py]? with _ | row
    · simp [h] at hp
    · by_cases hx : px = qx <;> simp_all
  · simp [hy]

theorem FrameBuffer.has_toggle (fb : FrameBuffer) (p q : Nat × Nat) :
    FrameBuffer.has (FrameBuffer.toggle fb p) q = FrameBuffer.has fb q := by
  simp only [FrameBuffer.has, FrameBuffer.toggle, List.getD_eq_getElem?_getD, List.getElem?_modify]
  by_cases hy : p.2 = q.2 <;> rcases fb[q.2]? with _ | row <;> simp [hy]

theorem FrameBuffer.WF_toggle (p : Params) (fb : FrameBuffer) (px : Nat × Nat) (h : FrameBuffer.WF p fb) :
    FrameBuffer.WF p (FrameBuffer.toggle fb px) := by
  refine ⟨by simpa [FrameBuffer.toggle] using h.1, fun row hr => ?_⟩
  obtain ⟨k, hk, rfl⟩ := List.getElem_of_mem hr
  simp only [FrameBuffer.toggle, List.length_modify] at hk
  simp only [FrameBuffer.toggle, List.getElem_modify]
  have := h.2 fb[k] (List.getElem_mem hk)
  split <;> simpa using this

theorem FrameBuffer.has_of_WF (p : Params) (fb : FrameBuffer) (px : Nat × Nat) (h : FrameBuffer.WF p fb)
    (hx : px.1 < p.displayW) (hy : px.2 < p.displayH) : FrameBuffer.has fb px = true := by
  have hl : px.2 < fb.length := h.1 ▸ hy
  simp [FrameBuffer.has, List.getD_eq_getElem?_getD, List.getElem?_eq_getElem hl, h.2 _ (List.getElem_mem hl), hx]

/-- Two frame buffers of the configured size with the same pixels are the same. -/
theorem FrameBuffer.ext_get (p : Params) (f g : FrameBuffer) (hf : FrameBuffer.WF p f) (hg : FrameBuffer.WF p g)
    (h : ∀ px, FrameBuffer.get f px = FrameBuffer.get g px) : f = g := by
  apply List.ext_getElem (by rw [hf.1, hg.1])
  intro y h1 h2
  apply List.ext_getElem (by rw [hf.2 _ (List.getElem_mem h1), hg.2 _ (List.getElem_mem h2)])
  intro x h3 h4
  simpa [FrameBuffer.get, List.getD_eq_getElem?_getD, List.getElem?_eq_getElem h1, List.getElem?_eq_getElem h2,
    List.getElem?_eq_getElem h3, List.getElem?_eq_getElem h4] using h (x, y)

/-! ### A blank display -/

theorem FrameBuffer.WF_blank (p : Params) : FrameBuffer.WF p (FrameBuffer.blank p) := by
  refine ⟨by simp [FrameBuffer.blank], fun row hr => ?_⟩
  rw [FrameBuffer.blank, List.mem_replicate] at hr
  simp [hr.2]

theorem FrameBuffer.get_blank (p : Params) (px : Nat × Nat) : FrameBuffer.get (FrameBuffer.blank p) px = false := by
  simp only [FrameBuffer.get, FrameBuffer.blank, List.getD_eq_getElem?_getD, List.getElem?_replicate]
  split
  · simp only [Option.getD_some, List.getElem?_replicate]; split <;> rfl
  · rfl

/-! ### A list of pixels -/

theorem FrameBuffer.WF_blit (p : Params) (pxs : List (Nat × Nat)) (fb : FrameBuffer) (c : Bool)
    (h : FrameBuffer.WF p fb) : FrameBuffer.WF p (FrameBuffer.blit pxs fb c).1 := by
  induction pxs generalizing fb c with
  | nil => exact h
  | cons px pxs ih => exact ih _ _ (FrameBuffer.WF_toggle p fb px h)

/-- With no pixel twice, the addressed pixels are inverted and the others kept (spec 44_display.md R143). -/
theorem FrameBuffer.get_blit (pxs : List (Nat × Nat)) (fb : FrameBuffer) (c : Bool) (hn : pxs.Nodup)
    (hh : ∀ px ∈ pxs, FrameBuffer.has fb px = true) (q : Nat × Nat) :
    FrameBuffer.get (FrameBuffer.blit pxs fb c).1 q = if q ∈ pxs then !FrameBuffer.get fb q else FrameBuffer.get fb q := by
  induction pxs generalizing fb c with
  | nil => simp [FrameBuffer.blit]
  | cons px pxs ih =>
    rw [List.nodup_cons] at hn
    unfold FrameBuffer.blit
    rw [ih _ _ hn.2 (fun r hr => by rw [FrameBuffer.has_toggle]; exact hh r (by simp [hr])),
      FrameBuffer.get_toggle fb px q (hh px (by simp))]
    by_cases h1 : px = q
    · subst h1; simp [hn.1]
    · simp [h1, Ne.symm h1]

/-- With no pixel twice, the collision is noted exactly when an addressed pixel was set before (R143). -/
theorem FrameBuffer.collision_blit (pxs : List (Nat × Nat)) (fb : FrameBuffer) (c : Bool) (hn : pxs.Nodup)
    (hh : ∀ px ∈ pxs, FrameBuffer.has fb px = true) :
    (FrameBuffer.blit pxs fb c).2 = (c || pxs.any (FrameBuffer.get fb)) := by
  induction pxs generalizing fb c with
  | nil => simp [FrameBuffer.blit]
  | cons px pxs ih =>
    rw [List.nodup_cons] at hn
    unfold FrameBuffer.blit
    rw [ih _ _ hn.2 (fun r hr => by rw [FrameBuffer.has_toggle]; exact hh r (by simp [hr])), List.any_cons, Bool.or_assoc]
    have h : pxs.any (FrameBuffer.get (FrameBuffer.toggle fb px)) = pxs.any (FrameBuffer.get fb) := by
      have hne : ∀ q ∈ pxs, FrameBuffer.get (FrameBuffer.toggle fb px) q = FrameBuffer.get fb q := by
        intro q hq
        rw [FrameBuffer.get_toggle fb px q (hh px (by simp)), if_neg]
        rintro rfl
        exact hn.1 hq
      rw [Bool.eq_iff_iff, List.any_eq_true, List.any_eq_true]
      exact exists_congr fun q => and_congr_right fun hq => by rw [hne q hq]
    rw [h]

/-! ### The pixels of a sprite -/

theorem mem_rowPixels (p : Params) (b : Byte) (x0 py : Nat) (q : Nat × Nat) :
    q ∈ rowPixels p b x0 py ↔
      ∃ c, c < 8 ∧ b.getLsbD (7 - c) = true ∧ q.1 = (x0 + c) % p.displayW ∧ q.2 = py % p.displayH := by
  obtain ⟨qx, qy⟩ := q
  simp only [rowPixels, List.mem_map, List.mem_filter, List.mem_range, Prod.mk.injEq]
  grind

/-- The addressed pixels: a 1 bit in row r, column c lands on (x0 + c, y0 + r), wrapped (44_display.md R142). -/
theorem mem_spritePixels (p : Params) (x0 : Nat) (rows : List Byte) (y0 : Nat) (q : Nat × Nat) :
    q ∈ spritePixels p x0 y0 rows ↔
      ∃ r c, ∃ h : r < rows.length, c < 8 ∧ rows[r].getLsbD (7 - c) = true ∧
        q.1 = (x0 + c) % p.displayW ∧ q.2 = (y0 + r) % p.displayH := by
  induction rows generalizing y0 with
  | nil => simp [spritePixels]
  | cons b rows ih =>
    rw [spritePixels, List.mem_append, ih, mem_rowPixels]
    constructor
    · rintro (⟨c, hc, hb, h1, h2⟩ | ⟨r, c, hr, hc, hb, h1, h2⟩)
      · exact ⟨0, c, by simp, hc, by simpa using hb, h1, by simpa using h2⟩
      · exact ⟨r + 1, c, by simpa using hr, hc, by simpa using hb, h1, by rw [h2]; congr 1; omega⟩
    · rintro ⟨r, c, hr, hc, hb, h1, h2⟩
      cases r with
      | zero => exact .inl ⟨c, hc, by simpa using hb, h1, by simpa using h2⟩
      | succ r =>
        exact .inr ⟨r, c, by simpa using hr, hc, by simpa using hb, h1, by rw [h2]; congr 1; omega⟩

/-- Two numbers less than n apart that agree modulo n are equal. -/
theorem eq_of_mod_eq_of_near {a b n : Nat} (h : a % n = b % n) (h1 : a ≤ b) (h2 : b < a + n) : a = b := by
  have h3 : (b - a) % n = 0 := (Nat.modEq_iff_dvd' h1).1 h |> Nat.mod_eq_zero_of_dvd
  rw [Nat.mod_eq_of_lt (by omega)] at h3
  omega

theorem add_mod_inj {x c d n : Nat} (h : (x + c) % n = (x + d) % n) (hc : c < n) (hd : d < n) : c = d := by
  rcases Nat.le_total c d with h1 | h1
  · have := eq_of_mod_eq_of_near h (by omega) (by omega); omega
  · have := eq_of_mod_eq_of_near h.symm (by omega) (by omega); omega

/-- With the width bound of 00_scope.md R6 no pixel of a row is addressed twice. -/
theorem nodup_rowPixels (p : Params) (hp : p.WF) (b : Byte) (x0 py : Nat) : (rowPixels p b x0 py).Nodup := by
  refine List.Nodup.map_on ?_ (List.nodup_range.filter _)
  intro c hc d hd h
  simp only [List.mem_filter, List.mem_range, Prod.mk.injEq] at *
  have := hp.2.1
  exact add_mod_inj h.1 (by omega) (by omega)

/-- With the bounds of R6 no pixel is addressed twice by one draw of at most 15 rows (44_display.md R142). -/
theorem nodup_spritePixels (p : Params) (hp : p.WF) (x0 : Nat) (rows : List Byte) (y0 : Nat) (hl : rows.length ≤ 15) :
    (spritePixels p x0 y0 rows).Nodup := by
  induction rows generalizing y0 with
  | nil => simp [spritePixels]
  | cons b rows ih =>
    simp only [List.length_cons] at hl
    rw [spritePixels, List.nodup_append]
    refine ⟨nodup_rowPixels p hp b x0 y0, ih (y0 + 1) (by omega), ?_⟩
    intro q hq q' hq' he
    subst he
    rw [mem_rowPixels] at hq
    rw [mem_spritePixels] at hq'
    obtain ⟨_, _, _, _, h1⟩ := hq
    obtain ⟨r, _, hr, _, _, _, h2⟩ := hq'
    have h3 := hp.2.2
    have := @add_mod_inj y0 0 (r + 1) p.displayH (by rw [Nat.add_zero, ← h1, h2]; congr 1; omega) (by omega) (by omega)
    omega

/-- Every addressed pixel lies on the display. -/
theorem spritePixels_lt (p : Params) (hp : p.WF) (x0 : Nat) (rows : List Byte) (y0 : Nat) (q : Nat × Nat)
    (hq : q ∈ spritePixels p x0 y0 rows) : q.1 < p.displayW ∧ q.2 < p.displayH := by
  rw [mem_spritePixels] at hq
  obtain ⟨r, c, _, _, _, h1, h2⟩ := hq
  have := hp.2
  exact ⟨h1 ▸ Nat.mod_lt _ (by omega), h2 ▸ Nat.mod_lt _ (by omega)⟩

end Sys2Proof.Machine
end

