-- ==== Sys2Proof/Laws/Memory.lean ====
section
/-! SUPPORT. The laws of memory: read after write, and that every operation keeps the canonical form. -/

namespace Sys2Proof.Machine

/-! ### One byte -/

theorem Memory.lookup_insert (m : Memory) (a : Nat) (b : Byte) (a' : Nat) :
    Memory.lookup (Memory.insert a b m) a' = if a = a' then b else Memory.lookup m a' := by
  induction m with
  | nil => simp [Memory.insert, Memory.lookup]
  | cons c m ih => unfold Memory.insert; split <;> grind [Memory.lookup]

theorem Memory.lookup_filter (m : Memory) (a a' : Nat) :
    Memory.lookup (m.filter (fun c => decide (c.1 ≠ a))) a' =
      if a = a' then Memory.background a' else Memory.lookup m a' := by
  induction m with
  | nil => simp [Memory.lookup]
  | cons c m ih => by_cases h : c.1 = a <;> grind [Memory.lookup]

/-- An update is seen at its address and nowhere else. -/
theorem Memory.lookup_update (m : Memory) (a : Nat) (b : Byte) (a' : Nat) :
    Memory.lookup (Memory.update m a b) a' = if a = a' then b else Memory.lookup m a' := by
  unfold Memory.update
  split
  · rw [Memory.lookup_filter]; split <;> simp_all
  · exact Memory.lookup_insert m a b a'

/-- `MemRead` after `MemWrite` (spec 20_memory.md R55, R59). -/
theorem Memory.read_write (m : Memory) (a : Nat) (b : Byte) (a' : Nat) :
    Memory.read (Memory.write m a b) a' = if a % memSize = a' % memSize then b else Memory.read m a' :=
  Memory.lookup_update m (a % memSize) b (a' % memSize)

/-- A read depends on the address modulo 4096 only (20_memory.md R50). -/
theorem Memory.read_mod (m : Memory) (a : Nat) : Memory.read m (a % memSize) = Memory.read m a := by
  simp [Memory.read]

/-! ### Several bytes -/

/-- A byte no write of the sequence reaches is kept. -/
theorem Memory.read_writeList_of_ne (bs : List Byte) (m : Memory) (a a' : Nat)
    (h : ∀ k, k < bs.length → (a + k) % memSize ≠ a' % memSize) :
    Memory.read (Memory.writeList m a bs) a' = Memory.read m a' := by
  induction bs generalizing m a with
  | nil => rfl
  | cons b bs ih =>
    unfold Memory.writeList
    rw [ih _ _ (fun k hk => by simpa [Nat.add_assoc, Nat.add_comm 1 k] using h (k + 1) (by simpa using hk)),
      Memory.read_write, if_neg (by simpa using h 0 (by simp))]

/-- Byte k of a sequence of at most 4096 bytes is read back at address a + k. -/
theorem Memory.read_writeList (bs : List Byte) (m : Memory) (a k : Nat) (hk : k < bs.length) (hl : bs.length ≤ memSize) :
    Memory.read (Memory.writeList m a bs) (a + k) = bs[k] := by
  induction bs generalizing m a k with
  | nil => simp at hk
  | cons b bs ih =>
    unfold Memory.writeList
    cases k with
    | zero =>
      rw [Memory.read_writeList_of_ne]
      · simp [Memory.read_write]
      · intro j hj; simp only [List.length_cons] at hl; simp only [memSize] at *; omega
    | succ k =>
      have := ih (Memory.write m a b) (a + 1) k (by simpa using hk) (by simp at hl; omega)
      simpa [Nat.add_assoc, Nat.add_comm 1 k] using this

/-! ### The canonical form -/

theorem Memory.WF_nil : Memory.WF [] := by simp [Memory.WF]

theorem Memory.mem_insert (m : Memory) (a : Nat) (b : Byte) (c : Host.Cell) (h : c ∈ Memory.insert a b m) :
    c = (a, b) ∨ c ∈ m := by
  induction m with
  | nil => simpa [Memory.insert] using h
  | cons d m ih => unfold Memory.insert at h; split at h <;> grind

theorem Memory.pairwise_insert (m : Memory) (a : Nat) (b : Byte) (h : m.Pairwise (fun c d => c.1 < d.1)) :
    (Memory.insert a b m).Pairwise (fun c d => c.1 < d.1) := by
  induction m with
  | nil => simp [Memory.insert]
  | cons d m ih =>
    rw [List.pairwise_cons] at h
    unfold Memory.insert
    split
    · grind [List.pairwise_cons]
    · split
      · grind [List.pairwise_cons]
      · refine List.pairwise_cons.2 ⟨fun c hc => ?_, ih h.2⟩
        rcases Memory.mem_insert m a b c hc with rfl | hc
        · grind
        · exact h.1 c hc

theorem Memory.WF_update (m : Memory) (a : Nat) (b : Byte) (ha : a < memSize) (h : Memory.WF m) :
    Memory.WF (Memory.update m a b) := by
  unfold Memory.update
  split
  · exact ⟨h.1.filter _, fun c hc => h.2 c (List.mem_filter.1 hc).1⟩
  · refine ⟨Memory.pairwise_insert m a b h.1, fun c hc => ?_⟩
    rcases Memory.mem_insert m a b c hc with rfl | hc
    · exact ⟨ha, by assumption⟩
    · exact h.2 c hc

/-- Every write keeps the canonical form. -/
theorem Memory.WF_write (m : Memory) (a : Nat) (b : Byte) (h : Memory.WF m) : Memory.WF (Memory.write m a b) :=
  Memory.WF_update m _ b (Nat.mod_lt _ (by decide)) h

/-- Every sequence of writes keeps the canonical form. -/
theorem Memory.WF_writeList (bs : List Byte) (m : Memory) (a : Nat) (h : Memory.WF m) :
    Memory.WF (Memory.writeList m a bs) := by
  induction bs generalizing m a with
  | nil => exact h
  | cons b bs ih => exact ih _ _ (Memory.WF_write m a b h)

end Sys2Proof.Machine
end

