-- ==== Sys2Proof/Laws/State.lean ====
section
/-! SUPPORT. One lemma per field per update of the state, and reading a register after an update. -/

namespace Sys2Proof.Machine

/-! ### `setV` -/

@[simp] theorem setV_v (s : State) (r : Nibble) (b : Byte) : (setV s r b).v = s.v.set r.toNat b r.isLt := rfl
@[simp] theorem setV_i (s : State) (r : Nibble) (b : Byte) : (setV s r b).i = s.i := rfl
@[simp] theorem setV_pc (s : State) (r : Nibble) (b : Byte) : (setV s r b).pc = s.pc := rfl
@[simp] theorem setV_sp (s : State) (r : Nibble) (b : Byte) : (setV s r b).sp = s.sp := rfl
@[simp] theorem setV_stack (s : State) (r : Nibble) (b : Byte) : (setV s r b).stack = s.stack := rfl
@[simp] theorem setV_dt (s : State) (r : Nibble) (b : Byte) : (setV s r b).dt = s.dt := rfl
@[simp] theorem setV_st (s : State) (r : Nibble) (b : Byte) : (setV s r b).st = s.st := rfl
@[simp] theorem setV_mem (s : State) (r : Nibble) (b : Byte) : (setV s r b).mem = s.mem := rfl
@[simp] theorem setV_fb (s : State) (r : Nibble) (b : Byte) : (setV s r b).fb = s.fb := rfl
@[simp] theorem setV_drawFlag (s : State) (r : Nibble) (b : Byte) : (setV s r b).drawFlag = s.drawFlag := rfl
@[simp] theorem setV_keys (s : State) (r : Nibble) (b : Byte) : (setV s r b).keys = s.keys := rfl
@[simp] theorem setV_wait (s : State) (r : Nibble) (b : Byte) : (setV s r b).wait = s.wait := rfl
@[simp] theorem setV_run (s : State) (r : Nibble) (b : Byte) : (setV s r b).run = s.run := rfl
@[simp] theorem setV_fault (s : State) (r : Nibble) (b : Byte) : (setV s r b).fault = s.fault := rfl
@[simp] theorem setV_params (s : State) (r : Nibble) (b : Byte) : (setV s r b).params = s.params := rfl
@[simp] theorem setV_rndCount (s : State) (r : Nibble) (b : Byte) : (setV s r b).rndCount = s.rndCount := rfl
@[simp] theorem setV_schedule (s : State) (r : Nibble) (b : Byte) : (setV s r b).schedule = s.schedule := rfl

/-! ### `jumpTo` -/

@[simp] theorem jumpTo_v (s : State) (w : Word) : (jumpTo s w).v = s.v := rfl
@[simp] theorem jumpTo_i (s : State) (w : Word) : (jumpTo s w).i = s.i := rfl
@[simp] theorem jumpTo_pc (s : State) (w : Word) : (jumpTo s w).pc = w := rfl
@[simp] theorem jumpTo_sp (s : State) (w : Word) : (jumpTo s w).sp = s.sp := rfl
@[simp] theorem jumpTo_stack (s : State) (w : Word) : (jumpTo s w).stack = s.stack := rfl
@[simp] theorem jumpTo_dt (s : State) (w : Word) : (jumpTo s w).dt = s.dt := rfl
@[simp] theorem jumpTo_st (s : State) (w : Word) : (jumpTo s w).st = s.st := rfl
@[simp] theorem jumpTo_mem (s : State) (w : Word) : (jumpTo s w).mem = s.mem := rfl
@[simp] theorem jumpTo_fb (s : State) (w : Word) : (jumpTo s w).fb = s.fb := rfl
@[simp] theorem jumpTo_drawFlag (s : State) (w : Word) : (jumpTo s w).drawFlag = s.drawFlag := rfl
@[simp] theorem jumpTo_keys (s : State) (w : Word) : (jumpTo s w).keys = s.keys := rfl
@[simp] theorem jumpTo_wait (s : State) (w : Word) : (jumpTo s w).wait = s.wait := rfl
@[simp] theorem jumpTo_run (s : State) (w : Word) : (jumpTo s w).run = s.run := rfl
@[simp] theorem jumpTo_fault (s : State) (w : Word) : (jumpTo s w).fault = s.fault := rfl
@[simp] theorem jumpTo_params (s : State) (w : Word) : (jumpTo s w).params = s.params := rfl
@[simp] theorem jumpTo_rndCount (s : State) (w : Word) : (jumpTo s w).rndCount = s.rndCount := rfl
@[simp] theorem jumpTo_schedule (s : State) (w : Word) : (jumpTo s w).schedule = s.schedule := rfl

/-! ### `advance` -/

@[simp] theorem advance_v (s : State) : (advance s).v = s.v := rfl
@[simp] theorem advance_i (s : State) : (advance s).i = s.i := rfl
@[simp] theorem advance_pc (s : State) : (advance s).pc = s.pc + 2 := rfl
@[simp] theorem advance_sp (s : State) : (advance s).sp = s.sp := rfl
@[simp] theorem advance_stack (s : State) : (advance s).stack = s.stack := rfl
@[simp] theorem advance_dt (s : State) : (advance s).dt = s.dt := rfl
@[simp] theorem advance_st (s : State) : (advance s).st = s.st := rfl
@[simp] theorem advance_mem (s : State) : (advance s).mem = s.mem := rfl
@[simp] theorem advance_fb (s : State) : (advance s).fb = s.fb := rfl
@[simp] theorem advance_drawFlag (s : State) : (advance s).drawFlag = s.drawFlag := rfl
@[simp] theorem advance_keys (s : State) : (advance s).keys = s.keys := rfl
@[simp] theorem advance_wait (s : State) : (advance s).wait = s.wait := rfl
@[simp] theorem advance_run (s : State) : (advance s).run = s.run := rfl
@[simp] theorem advance_fault (s : State) : (advance s).fault = s.fault := rfl
@[simp] theorem advance_params (s : State) : (advance s).params = s.params := rfl
@[simp] theorem advance_rndCount (s : State) : (advance s).rndCount = s.rndCount := rfl
@[simp] theorem advance_schedule (s : State) : (advance s).schedule = s.schedule := rfl

/-! ### `setIndex` -/

@[simp] theorem setIndex_v (s : State) (n : Nat) : (setIndex s n).v = s.v := rfl
@[simp] theorem setIndex_i (s : State) (n : Nat) : (setIndex s n).i = BitVec.ofNat 12 n := rfl
@[simp] theorem setIndex_pc (s : State) (n : Nat) : (setIndex s n).pc = s.pc := rfl
@[simp] theorem setIndex_sp (s : State) (n : Nat) : (setIndex s n).sp = s.sp := rfl
@[simp] theorem setIndex_stack (s : State) (n : Nat) : (setIndex s n).stack = s.stack := rfl
@[simp] theorem setIndex_dt (s : State) (n : Nat) : (setIndex s n).dt = s.dt := rfl
@[simp] theorem setIndex_st (s : State) (n : Nat) : (setIndex s n).st = s.st := rfl
@[simp] theorem setIndex_mem (s : State) (n : Nat) : (setIndex s n).mem = s.mem := rfl
@[simp] theorem setIndex_fb (s : State) (n : Nat) : (setIndex s n).fb = s.fb := rfl
@[simp] theorem setIndex_drawFlag (s : State) (n : Nat) : (setIndex s n).drawFlag = s.drawFlag := rfl
@[simp] theorem setIndex_keys (s : State) (n : Nat) : (setIndex s n).keys = s.keys := rfl
@[simp] theorem setIndex_wait (s : State) (n : Nat) : (setIndex s n).wait = s.wait := rfl
@[simp] theorem setIndex_run (s : State) (n : Nat) : (setIndex s n).run = s.run := rfl
@[simp] theorem setIndex_fault (s : State) (n : Nat) : (setIndex s n).fault = s.fault := rfl
@[simp] theorem setIndex_params (s : State) (n : Nat) : (setIndex s n).params = s.params := rfl
@[simp] theorem setIndex_rndCount (s : State) (n : Nat) : (setIndex s n).rndCount = s.rndCount := rfl
@[simp] theorem setIndex_schedule (s : State) (n : Nat) : (setIndex s n).schedule = s.schedule := rfl

/-! ### `storeBytes` -/

@[simp] theorem storeBytes_v (s : State) (a : Nat) (bs : List Byte) : (storeBytes s a bs).v = s.v := rfl
@[simp] theorem storeBytes_i (s : State) (a : Nat) (bs : List Byte) : (storeBytes s a bs).i = s.i := rfl
@[simp] theorem storeBytes_pc (s : State) (a : Nat) (bs : List Byte) : (storeBytes s a bs).pc = s.pc := rfl
@[simp] theorem storeBytes_sp (s : State) (a : Nat) (bs : List Byte) : (storeBytes s a bs).sp = s.sp := rfl
@[simp] theorem storeBytes_stack (s : State) (a : Nat) (bs : List Byte) : (storeBytes s a bs).stack = s.stack := rfl
@[simp] theorem storeBytes_dt (s : State) (a : Nat) (bs : List Byte) : (storeBytes s a bs).dt = s.dt := rfl
@[simp] theorem storeBytes_st (s : State) (a : Nat) (bs : List Byte) : (storeBytes s a bs).st = s.st := rfl
@[simp] theorem storeBytes_mem (s : State) (a : Nat) (bs : List Byte) : (storeBytes s a bs).mem = Memory.writeList s.mem a bs := rfl
@[simp] theorem storeBytes_fb (s : State) (a : Nat) (bs : List Byte) : (storeBytes s a bs).fb = s.fb := rfl
@[simp] theorem storeBytes_drawFlag (s : State) (a : Nat) (bs : List Byte) : (storeBytes s a bs).drawFlag = s.drawFlag := rfl
@[simp] theorem storeBytes_keys (s : State) (a : Nat) (bs : List Byte) : (storeBytes s a bs).keys = s.keys := rfl
@[simp] theorem storeBytes_wait (s : State) (a : Nat) (bs : List Byte) : (storeBytes s a bs).wait = s.wait := rfl
@[simp] theorem storeBytes_run (s : State) (a : Nat) (bs : List Byte) : (storeBytes s a bs).run = s.run := rfl
@[simp] theorem storeBytes_fault (s : State) (a : Nat) (bs : List Byte) : (storeBytes s a bs).fault = s.fault := rfl
@[simp] theorem storeBytes_params (s : State) (a : Nat) (bs : List Byte) : (storeBytes s a bs).params = s.params := rfl
@[simp] theorem storeBytes_rndCount (s : State) (a : Nat) (bs : List Byte) : (storeBytes s a bs).rndCount = s.rndCount := rfl
@[simp] theorem storeBytes_schedule (s : State) (a : Nat) (bs : List Byte) : (storeBytes s a bs).schedule = s.schedule := rfl

/-! ### `raiseFault` -/

@[simp] theorem raiseFault_v (c : FaultCode) (w : Word) (s : State) : (raiseFault c w s).v = s.v := rfl
@[simp] theorem raiseFault_i (c : FaultCode) (w : Word) (s : State) : (raiseFault c w s).i = s.i := rfl
@[simp] theorem raiseFault_pc (c : FaultCode) (w : Word) (s : State) : (raiseFault c w s).pc = s.pc := rfl
@[simp] theorem raiseFault_sp (c : FaultCode) (w : Word) (s : State) : (raiseFault c w s).sp = s.sp := rfl
@[simp] theorem raiseFault_stack (c : FaultCode) (w : Word) (s : State) : (raiseFault c w s).stack = s.stack := rfl
@[simp] theorem raiseFault_dt (c : FaultCode) (w : Word) (s : State) : (raiseFault c w s).dt = s.dt := rfl
@[simp] theorem raiseFault_st (c : FaultCode) (w : Word) (s : State) : (raiseFault c w s).st = s.st := rfl
@[simp] theorem raiseFault_mem (c : FaultCode) (w : Word) (s : State) : (raiseFault c w s).mem = s.mem := rfl
@[simp] theorem raiseFault_fb (c : FaultCode) (w : Word) (s : State) : (raiseFault c w s).fb = s.fb := rfl
@[simp] theorem raiseFault_drawFlag (c : FaultCode) (w : Word) (s : State) : (raiseFault c w s).drawFlag = s.drawFlag := rfl
@[simp] theorem raiseFault_keys (c : FaultCode) (w : Word) (s : State) : (raiseFault c w s).keys = s.keys := rfl
@[simp] theorem raiseFault_wait (c : FaultCode) (w : Word) (s : State) : (raiseFault c w s).wait = s.wait := rfl
@[simp] theorem raiseFault_run (c : FaultCode) (w : Word) (s : State) : (raiseFault c w s).run = s.run := rfl
@[simp] theorem raiseFault_fault (c : FaultCode) (w : Word) (s : State) : (raiseFault c w s).fault = ⟨c, s.pc, w⟩ := rfl
@[simp] theorem raiseFault_params (c : FaultCode) (w : Word) (s : State) : (raiseFault c w s).params = s.params := rfl
@[simp] theorem raiseFault_rndCount (c : FaultCode) (w : Word) (s : State) : (raiseFault c w s).rndCount = s.rndCount := rfl
@[simp] theorem raiseFault_schedule (c : FaultCode) (w : Word) (s : State) : (raiseFault c w s).schedule = s.schedule := rfl

/-! ### Registers -/

/-- A register write is seen at its register and nowhere else (spec 10_state.md R20). -/
theorem getV_setV (s : State) (r q : Nibble) (b : Byte) :
    getV (setV s r b) q = if r = q then b else getV s q := by
  simp only [getV, setV_v, Vector.getElem_set, BitVec.toNat_inj]

@[simp] theorem getV_setV_same (s : State) (r : Nibble) (b : Byte) : getV (setV s r b) r = b := by
  simp [getV_setV]

theorem getV_setV_ne (s : State) (r q : Nibble) (b : Byte) (h : q ≠ r) : getV (setV s r b) q = getV s q := by
  simp [getV_setV, Ne.symm h]

/-- A register read sees only the register file. -/
theorem getV_congr {s t : State} (h : t.v = s.v) (r : Nibble) : getV t r = getV s r := by simp [getV, h]

@[simp] theorem getV_advance (s : State) (r : Nibble) : getV (advance s) r = getV s r := rfl
@[simp] theorem getV_jumpTo (s : State) (w : Word) (r : Nibble) : getV (jumpTo s w) r = getV s r := rfl
@[simp] theorem getV_setIndex (s : State) (n : Nat) (r : Nibble) : getV (setIndex s n) r = getV s r := rfl
@[simp] theorem getV_storeBytes (s : State) (a : Nat) (bs : List Byte) (r : Nibble) :
    getV (storeBytes s a bs) r = getV s r := rfl

/-- Result, then flag: VF ends as the flag, V[x] as the result unless x is VF (42_alu.md R110 law 3). -/
theorem getV_writeResult (s : State) (x q : Nibble) (r : Byte × Bool) :
    getV (writeResult s x r) q = if q = 15#4 then flagByte r.2 else if q = x then r.1 else getV s q := by
  simp only [writeResult, setVF, getV_setV, regVF]
  grind

/-- A result with its flag changes the register file only. -/
theorem writeResult_eq (s : State) (x : Nibble) (r : Byte × Bool) :
    writeResult s x r = { s with v := (writeResult s x r).v } := rfl

/-- The increment of PC modulo 2^16 (00_scope.md R11). -/
theorem nextPc_eq (s : State) : nextPc s = BitVec.ofNat 16 (s.pc.toNat + 2) := by
  simp [nextPc, BitVec.ofNat_add]

theorem nextPc_add_two (s : State) : nextPc s + 2 = BitVec.ofNat 16 (s.pc.toNat + 4) := by
  apply BitVec.eq_of_toNat_eq; simp [nextPc, BitVec.toNat_add]

/-- A fall-through changes PC only. -/
theorem advance_eq (s : State) : advance s = { s with pc := BitVec.ofNat 16 (s.pc.toNat + 2) } := by
  rw [← nextPc_eq]; rfl

/-- A skip changes PC only, by 4 or by 2 (41_control_transfer.md R100). -/
theorem skipIf_eq (s : State) (c : Bool) :
    skipIf s c = { s with pc := if c then BitVec.ofNat 16 (s.pc.toNat + 4) else BitVec.ofNat 16 (s.pc.toNat + 2) } := by
  rw [← nextPc_eq, ← nextPc_add_two]; rfl

/-! ### `countDraw` -/

@[simp] theorem countDraw_v (s : State) : (countDraw s).v = s.v := rfl
@[simp] theorem countDraw_i (s : State) : (countDraw s).i = s.i := rfl
@[simp] theorem countDraw_pc (s : State) : (countDraw s).pc = s.pc := rfl
@[simp] theorem countDraw_sp (s : State) : (countDraw s).sp = s.sp := rfl
@[simp] theorem countDraw_stack (s : State) : (countDraw s).stack = s.stack := rfl
@[simp] theorem countDraw_dt (s : State) : (countDraw s).dt = s.dt := rfl
@[simp] theorem countDraw_st (s : State) : (countDraw s).st = s.st := rfl
@[simp] theorem countDraw_mem (s : State) : (countDraw s).mem = s.mem := rfl
@[simp] theorem countDraw_fb (s : State) : (countDraw s).fb = s.fb := rfl
@[simp] theorem countDraw_drawFlag (s : State) : (countDraw s).drawFlag = s.drawFlag := rfl
@[simp] theorem countDraw_keys (s : State) : (countDraw s).keys = s.keys := rfl
@[simp] theorem countDraw_wait (s : State) : (countDraw s).wait = s.wait := rfl
@[simp] theorem countDraw_run (s : State) : (countDraw s).run = s.run := rfl
@[simp] theorem countDraw_fault (s : State) : (countDraw s).fault = s.fault := rfl
@[simp] theorem countDraw_params (s : State) : (countDraw s).params = s.params := rfl
@[simp] theorem countDraw_rndCount (s : State) : (countDraw s).rndCount = s.rndCount + 1 := rfl
@[simp] theorem countDraw_schedule (s : State) : (countDraw s).schedule = s.schedule := rfl
@[simp] theorem getV_countDraw (s : State) (r : Nibble) : getV (countDraw s) r = getV s r := rfl

/-! ### `beginWait`, `endWait` -/

@[simp] theorem beginWait_v (s : State) (x : Nibble) : (beginWait s x).v = s.v := rfl
@[simp] theorem beginWait_i (s : State) (x : Nibble) : (beginWait s x).i = s.i := rfl
@[simp] theorem beginWait_pc (s : State) (x : Nibble) : (beginWait s x).pc = s.pc := rfl
@[simp] theorem beginWait_sp (s : State) (x : Nibble) : (beginWait s x).sp = s.sp := rfl
@[simp] theorem beginWait_stack (s : State) (x : Nibble) : (beginWait s x).stack = s.stack := rfl
@[simp] theorem beginWait_dt (s : State) (x : Nibble) : (beginWait s x).dt = s.dt := rfl
@[simp] theorem beginWait_st (s : State) (x : Nibble) : (beginWait s x).st = s.st := rfl
@[simp] theorem beginWait_mem (s : State) (x : Nibble) : (beginWait s x).mem = s.mem := rfl
@[simp] theorem beginWait_fb (s : State) (x : Nibble) : (beginWait s x).fb = s.fb := rfl
@[simp] theorem beginWait_drawFlag (s : State) (x : Nibble) : (beginWait s x).drawFlag = s.drawFlag := rfl
@[simp] theorem beginWait_keys (s : State) (x : Nibble) : (beginWait s x).keys = s.keys := rfl
@[simp] theorem beginWait_wait (s : State) (x : Nibble) : (beginWait s x).wait = ⟨true, x⟩ := rfl
@[simp] theorem beginWait_run (s : State) (x : Nibble) : (beginWait s x).run = s.run := rfl
@[simp] theorem beginWait_fault (s : State) (x : Nibble) : (beginWait s x).fault = s.fault := rfl
@[simp] theorem beginWait_params (s : State) (x : Nibble) : (beginWait s x).params = s.params := rfl
@[simp] theorem beginWait_rndCount (s : State) (x : Nibble) : (beginWait s x).rndCount = s.rndCount := rfl
@[simp] theorem beginWait_schedule (s : State) (x : Nibble) : (beginWait s x).schedule = s.schedule := rfl
@[simp] theorem endWait_v (s : State) : (endWait s).v = s.v := rfl
@[simp] theorem endWait_i (s : State) : (endWait s).i = s.i := rfl
@[simp] theorem endWait_pc (s : State) : (endWait s).pc = s.pc := rfl
@[simp] theorem endWait_sp (s : State) : (endWait s).sp = s.sp := rfl
@[simp] theorem endWait_stack (s : State) : (endWait s).stack = s.stack := rfl
@[simp] theorem endWait_dt (s : State) : (endWait s).dt = s.dt := rfl
@[simp] theorem endWait_st (s : State) : (endWait s).st = s.st := rfl
@[simp] theorem endWait_mem (s : State) : (endWait s).mem = s.mem := rfl
@[simp] theorem endWait_fb (s : State) : (endWait s).fb = s.fb := rfl
@[simp] theorem endWait_drawFlag (s : State) : (endWait s).drawFlag = s.drawFlag := rfl
@[simp] theorem endWait_keys (s : State) : (endWait s).keys = s.keys := rfl
@[simp] theorem endWait_wait (s : State) : (endWait s).wait = ⟨false, s.wait.reg⟩ := rfl
@[simp] theorem endWait_run (s : State) : (endWait s).run = s.run := rfl
@[simp] theorem endWait_fault (s : State) : (endWait s).fault = s.fault := rfl
@[simp] theorem endWait_params (s : State) : (endWait s).params = s.params := rfl
@[simp] theorem endWait_rndCount (s : State) : (endWait s).rndCount = s.rndCount := rfl
@[simp] theorem endWait_schedule (s : State) : (endWait s).schedule = s.schedule := rfl
@[simp] theorem getV_beginWait (s : State) (x r : Nibble) : getV (beginWait s x) r = getV s r := rfl
@[simp] theorem getV_endWait (s : State) (r : Nibble) : getV (endWait s) r = getV s r := rfl

/-! ### Memory reads of the state -/

/-- A byte no store of the sequence reaches is kept (20_memory.md R58, R59). -/
theorem readMem_storeBytes_of_ne (s : State) (a : Nat) (bs : List Byte) (a' : Nat)
    (h : ∀ k, k < bs.length → (a + k) % memSize ≠ a' % memSize) : readMem (storeBytes s a bs) a' = readMem s a' :=
  Memory.read_writeList_of_ne bs s.mem a a' h

/-- Byte k of a stored sequence is read back at address a + k. -/
theorem readMem_storeBytes (s : State) (a : Nat) (bs : List Byte) (k : Nat) (hk : k < bs.length)
    (hl : bs.length ≤ memSize) : readMem (storeBytes s a bs) (a + k) = bs[k] :=
  Memory.read_writeList bs s.mem a k hk hl

/-- A memory read sees only the memory. -/
theorem readMem_congr {s t : State} (h : t.mem = s.mem) (a : Nat) : readMem t a = readMem s a := by simp [readMem, h]

/-! ### Operands -/

@[simp] theorem length_indexedBytes (s : State) (n : Nat) : (indexedBytes s n).length = n := by simp [indexedBytes]

@[simp] theorem getElem_indexedBytes (s : State) (n k : Nat) (h : k < (indexedBytes s n).length) :
    (indexedBytes s n)[k] = readMem s (s.i.toNat + k) := by simp [indexedBytes, effectiveAddress]

@[simp] theorem length_bcdDigits (b : Byte) : (bcdDigits b).length = 3 := rfl

@[simp] theorem length_regsUpTo (s : State) (x : Nibble) : (regsUpTo s x).length = x.toNat + 1 := by
  have := x.isLt; simp [regsUpTo]; omega

theorem getElem_regsUpTo (s : State) (x r : Nibble) (h : r.toNat < (regsUpTo s x).length) :
    (regsUpTo s x)[r.toNat] = getV s r := by simp [regsUpTo, getV]

@[simp] theorem toNat_lowNibble (s : State) (x : Nibble) : (lowNibble s x).toNat = (getV s x).toNat % 16 := by
  simp [lowNibble]

end Sys2Proof.Machine
end

