-- ==== Sys2Proof/Laws/Ops.lean ====
section
/-! SUPPORT. What each shared operation can do, once: return stack, shifts and sums, the register load, the key search, the draw,
the fetch. -/

namespace Sys2Proof.Machine

/-! ### Return stack (spec 10_state.md R29) -/

theorem pushReturn_eq (s : State) (w : Word) (h : s.sp < s.stack.length) :
    pushReturn s w = some { s with stack := s.stack.set s.sp w, sp := s.sp + 1 } := by simp [pushReturn, h]

theorem pushReturn_some {s t : State} {w : Word} (h : pushReturn s w = some t) :
    s.sp < s.stack.length ∧ t = { s with stack := s.stack.set s.sp w, sp := s.sp + 1 } := by
  unfold pushReturn at h; split at h <;> simp_all

theorem popReturn_eq (s : State) (w : Word) (h : s.stack[s.sp - 1]? = some w) :
    popReturn s = some (w, { s with sp := s.sp - 1 }) := by simp [popReturn, h]

theorem popReturn_some {s t : State} {w : Word} (h : popReturn s = some (w, t)) :
    s.stack[s.sp - 1]? = some w ∧ t = { s with sp := s.sp - 1 } := by
  unfold popReturn at h; split at h <;> simp_all

/-! ### Flag computations (42_alu.md R110) -/

theorem flagByte_eq (f : Bool) : flagByte f = if f = true then 1 else 0 := by cases f <;> rfl

@[simp] theorem toNat_flagByte (f : Bool) : (flagByte f).toNat = f.toNat := by cases f <;> rfl

theorem toNat_addFlag (a b : Byte) : (addFlag a b).1.toNat = (a.toNat + b.toNat) % 256 := by simp [addFlag]

theorem toNat_subFlag (a b : Byte) : (subFlag a b).1.toNat = (a.toNat + 256 - b.toNat) % 256 := by simp [subFlag]

theorem toNat_shrFlag (a : Byte) : (shrFlag a).1.toNat = a.toNat / 2 ∧ (shrFlag a).2.toNat = a.toNat % 2 := by
  constructor
  · simp [shrFlag, BitVec.toNat_ushiftRight, Nat.shiftRight_eq_div_pow]
  · revert a; decide

theorem toNat_shlFlag (a : Byte) :
    (shlFlag a).1.toNat = a.toNat * 2 % 256 ∧ (shlFlag a).2.toNat = a.toNat / 128 := by
  revert a; decide

/-! ### Register load (46_memory_transfer.md R163) -/

theorem getElem_setRegsFrom (bs : List Byte) (v : Vector Byte 16) (k j : Nat) (hj : j < 16) :
    (setRegsFrom v k bs)[j] = if h : k ≤ j ∧ j - k < bs.length then bs[j - k]'h.2 else v[j] := by
  induction bs generalizing v k with
  | nil => simp [setRegsFrom]
  | cons b bs ih =>
    rw [setRegsFrom, ih]
    by_cases h1 : k = j
    · subst h1; simp
    · by_cases h2 : k + 1 ≤ j ∧ j - (k + 1) < bs.length
      · have h3 : k ≤ j ∧ j - k < (b :: bs).length := ⟨by omega, by simp only [List.length_cons]; omega⟩
        have h4 : j - k = (j - (k + 1)) + 1 := by omega
        rw [dif_pos h2, dif_pos h3]; simp only [h4, List.getElem_cons_succ]
      · have h3 : ¬ (k ≤ j ∧ j - k < (b :: bs).length) := by simp only [List.length_cons]; omega
        rw [dif_neg h2, dif_neg h3]; simp [h1]

/-- After `LD Vx, [I]` the registers up to x hold the bytes read, the others their old values. -/
theorem getV_loadedRegs (s : State) (n : Nat) (r : Nibble) :
    getV { s with v := setRegsFrom s.v 0 (indexedBytes s n) } r =
      if r.toNat < n then readMem s (s.i.toNat + r.toNat) else getV s r := by
  simp only [getV, getElem_setRegsFrom, Nat.zero_le, true_and, Nat.sub_zero, length_indexedBytes]
  split <;> simp

/-- The index move of a register transfer changes I only (R162, R163). -/
theorem indexAfterTransfer_eq (s : State) (x : Nibble) :
    indexAfterTransfer s x = { s with
      i := if s.params.memIncrementsI = true then BitVec.ofNat 12 (s.i.toNat + x.toNat + 1) else s.i } := by
  unfold indexAfterTransfer
  split <;> simp_all [setIndex]

/-! ### Keys (40_step_cycle.md R92) -/

theorem leastKey_eq_none (keys : Word) : leastKey keys = none ↔ ∀ k, k < 16 → keys.getLsbD k = false := by
  simp [leastKey]

theorem leastKey_eq_some (keys : Word) (k : Nat) :
    leastKey keys = some k ↔ k < 16 ∧ keys.getLsbD k = true ∧ ∀ j, j < k → keys.getLsbD j = false := by
  simp only [leastKey, List.find?_range_eq_some]
  grind

/-! ### Timers (60_exceptions.md R183, R184) -/

@[simp] theorem toNat_countDown (b : Byte) : (countDown b).toNat = b.toNat - 1 := by revert b; decide

theorem tick_eq (s : State) (h : Enabled s) : tick s = { s with dt := countDown s.dt, st := countDown s.st } := if_pos h

theorem tick_of_not (s : State) (h : ¬ Enabled s) : tick s = s := if_neg h

/-! ### Draw (44_display.md R142, R143) -/

/-- The frame and the results of drawing a list of pixels that are all on the display and all different. -/
theorem drawPixels_spec (s : State) (pxs : List (Nat × Nat)) (hn : pxs.Nodup)
    (hh : ∀ px ∈ pxs, FrameBuffer.has s.fb px = true) :
    drawPixels s pxs = { s with
      v := (drawPixels s pxs).v, fb := (drawPixels s pxs).fb, drawFlag := s.drawFlag || !pxs.isEmpty } ∧
    (∀ q, FrameBuffer.get (drawPixels s pxs).fb q =
      if q ∈ pxs then !FrameBuffer.get s.fb q else FrameBuffer.get s.fb q) ∧
    getV (drawPixels s pxs) 15#4 = flagByte (pxs.any (FrameBuffer.get s.fb)) ∧
    ∀ r, r ≠ 15#4 → getV (drawPixels s pxs) r = getV s r := by
  refine ⟨rfl, fun q => FrameBuffer.get_blit pxs s.fb false hn hh q, ?_, fun r hr => ?_⟩
  · rw [drawPixels, setVF, regVF, getV_setV_same, FrameBuffer.collision_blit _ _ _ hn hh, Bool.false_or]
  · rw [drawPixels, setVF, regVF, getV_setV_ne _ _ _ _ hr]; rfl

/-- The pixels a DRW addresses, in the words of R142. -/
theorem mem_drawTargets (s : State) (x y n : Nibble) (q : Nat × Nat) :
    q ∈ drawTargets s x y n ↔
      ∃ r c, r < n.toNat ∧ c < 8 ∧ (readMem s (s.i.toNat + r)).getLsbD (7 - c) = true ∧
        q.1 = ((getV s x).toNat % s.params.displayW + c) % s.params.displayW ∧
        q.2 = ((getV s y).toNat % s.params.displayH + r) % s.params.displayH := by
  rw [drawTargets, mem_spritePixels]
  refine exists_congr fun r => exists_congr fun c => ?_
  simp only [getElem_indexedBytes, length_indexedBytes, exists_prop]

theorem nodup_drawTargets (s : State) (x y n : Nibble) (hp : s.params.WF) : (drawTargets s x y n).Nodup :=
  nodup_spritePixels _ hp _ _ _ (by have := n.isLt; rw [length_indexedBytes]; omega)

theorem has_drawTargets (s : State) (x y n : Nibble) (hp : s.params.WF) (hf : FrameBuffer.WF s.params s.fb) :
    ∀ px ∈ drawTargets s x y n, FrameBuffer.has s.fb px = true := fun px h =>
  have hl := spritePixels_lt s.params hp _ _ _ px h
  FrameBuffer.has_of_WF s.params s.fb px hf hl.1 hl.2

/-- On a display of the configured size DRW always completes. -/
theorem execDrw_eq (s : State) (x y n : Nibble) (hp : s.params.WF) (hf : FrameBuffer.WF s.params s.fb) :
    execDrw x y n s = .next (advance (drawPixels s (drawTargets s x y n))) := by
  rw [execDrw, if_pos (List.all_eq_true.2 (has_drawTargets s x y n hp hf))]

/-! ### Fetch (40_step_cycle.md R93, R94) -/

/-- The decoder never answers `truncated` on a word, and an illegal word is named itself. -/
theorem decode_cases (w : Word) : (∃ i, decode w = .instr i) ∨ decode w = .illegalOpcode w := by
  rcases nibble_cases (fieldTop w) with h | h | h | h | h | h | h | h | h | h | h | h | h | h | h | h <;>
    simp [decode, h]
  · rcases decodeGroup0_cases w with ⟨-, h⟩ | ⟨-, h⟩ | ⟨-, -, h⟩
    · exact .inl ⟨_, h⟩
    · exact .inl ⟨_, h⟩
    · exact .inr h
  · rcases decodeN0_cases w (.seReg (fieldX w) (fieldY w)) with h | h <;> simp [h]
  · unfold decodeGroup8; split <;> simp
  · rcases decodeN0_cases w (.sneReg (fieldX w) (fieldY w)) with h | h <;> simp [h]
  · unfold decodeGroupE; grind
  · unfold decodeGroupF; grind

/-- Fetching reads two bytes, high byte first. -/
theorem fetchExecute_eq (s : State) :
    fetchExecute s =
      match decode (readMem s s.pc.toNat ++ readMem s (s.pc.toNat + 1)) with
      | .instr i => exec i s
      | .illegalOpcode w => .next (raiseFault .illegalOpcode w s)
      | .truncated => .next (raiseFault .illegalOpcode 0x0000 s) := rfl

end Sys2Proof.Machine
end

