-- ==== Sys2Proof/Laws/Inv.lean ====
section
/-! SUPPORT. How an update keeps the invariant. -/

namespace Sys2Proof.Machine

/-- A state that keeps the parameters, the number of slots and the fault record keeps the invariant, when its memory, stack
pointer and frame buffer are sound and a recorded fault keeps its PC. -/
theorem Inv.frame {s t : State} (h : Inv s) (hp : t.params = s.params) (hm : Memory.WF t.mem)
    (hs : t.stack.length = s.stack.length) (hd : t.sp ≤ s.params.stackDepth) (hf : FrameBuffer.WF s.params t.fb)
    (hr : t.fault = s.fault) (hn : s.fault.code = .none ∨ t.pc = s.pc) : Inv t := by
  refine ⟨hp ▸ h.params, hm, by rw [hs, hp, h.slots], hp ▸ hd, hp ▸ hf, hr ▸ h.noFault, fun hc => ?_⟩
  rw [hr] at hc ⊢
  rcases hn with hn | hn
  · exact absurd hn hc
  · rw [hn]; exact h.frozen hc

/-- Raising a fault keeps the invariant (spec 60_exceptions.md R178). -/
theorem Inv.raise {s : State} (h : Inv s) (c : FaultCode) (w : Word) (hc : c ≠ .none) : Inv (raiseFault c w s) :=
  ⟨h.params, h.mem, h.slots, h.depth, h.fb, fun e => absurd e hc, fun _ => rfl⟩

end Sys2Proof.Machine
end

