-- ==== Sys2Proof/Laws/Loader.lean ====
section
/-! SUPPORT. The laws of reset and load: memory after reset, memory after a load. -/

namespace Sys2Proof.Machine

theorem Memory.WF_zeroedMemory : Memory.WF zeroedMemory := Memory.WF_writeList _ _ _ Memory.WF_nil

/-- What an unlisted address above the font reads as. -/
theorem Memory.background_of_le (a : Nat) (h : 80 ≤ a) : Memory.background a = 0 := by
  rw [Memory.background, List.getD_eq_getElem?_getD, List.getElem?_eq_none h]; rfl

/-- After reset every byte is 0x00 (spec 70_reset_and_hazards.md R200). -/
theorem Memory.read_zeroedMemory (a : Nat) : Memory.read zeroedMemory a = 0 := by
  rw [← Memory.read_mod]
  by_cases h : a % memSize < 80
  · have := Memory.read_writeList (List.replicate 80 0x00) [] 0 (a % memSize) (by rw [List.length_replicate]; exact h)
      (by rw [List.length_replicate]; decide)
    rwa [Nat.zero_add, List.getElem_replicate] at this
  · have h1 : Memory.read zeroedMemory (a % memSize) = Memory.read [] (a % memSize) := by
      refine Memory.read_writeList_of_ne _ _ _ _ fun k hk => ?_
      rw [List.length_replicate] at hk
      rw [Nat.zero_add, Nat.mod_mod, Nat.mod_eq_of_lt (show k < memSize from Nat.lt_trans hk (by decide))]
      omega
    rw [h1]
    exact Memory.background_of_le _ (by rw [Nat.mod_mod]; omega)

theorem readMem_afterReset (p : Params) (run : RunState) (a : Nat) : readMem (afterReset p run) a = 0 :=
  Memory.read_zeroedMemory a

@[simp] theorem afterReset_mem (p : Params) (run : RunState) : (afterReset p run).mem = zeroedMemory := by unfold afterReset; rfl

theorem Memory.WF_afterReset (p : Params) (run : RunState) : Memory.WF (afterReset p run).mem :=
  (afterReset_mem p run).symm ▸ Memory.WF_zeroedMemory

/-- The launch of a machine: PC and RUN are set, memory is not (R205). -/
theorem readMem_launch (s : State) (pc : Word) (run : RunState) (a : Nat) :
    readMem { s with pc := pc, run := run } a = readMem s a := rfl

/-- A load of an image that fits succeeds (R205, R207). -/
theorem load_eq (font image : List Byte) (s : State) (h : ImageFits image) :
    load font (some image) s = .ok { storeBytes (storeBytes s 0 font) entryPoint image with
      pc := BitVec.ofNat 16 entryPoint, run := .running } := if_neg (Nat.not_lt.2 h)

end Sys2Proof.Machine
end

