-- ==== Sys2Proof/Laws/PerInstr.lean ====
section
/-! SUPPORT. Per instruction: its word lies in its row of the match and mask table (spec 30_encoding.md R78). -/

namespace Sys2Proof.Laws

/-- The instruction's word meets its row's mask and match. -/
def InTableRow.Statement (i : Instr) : Prop := ∃ m, opcodeRow i.row = some m ∧ encode i &&& m.2 = m.1

theorem InTableRow.cls : InTableRow.Statement (.cls) := ⟨_, rfl, by decide⟩
theorem InTableRow.ret : InTableRow.Statement (.ret) := ⟨_, rfl, by decide⟩
theorem InTableRow.jp (nnn : Addr) : InTableRow.Statement (.jp nnn) := ⟨_, rfl, mask_nnn _ _⟩
theorem InTableRow.call (nnn : Addr) : InTableRow.Statement (.call nnn) := ⟨_, rfl, mask_nnn _ _⟩
theorem InTableRow.seByte (x : Nibble) (kk : Byte) : InTableRow.Statement (.seByte x kk) := ⟨_, rfl, mask_xkk _ _ _⟩
theorem InTableRow.sneByte (x : Nibble) (kk : Byte) : InTableRow.Statement (.sneByte x kk) := ⟨_, rfl, mask_xkk _ _ _⟩
theorem InTableRow.seReg (x y : Nibble) : InTableRow.Statement (.seReg x y) := ⟨_, rfl, mask_xy _ _ _ _⟩
theorem InTableRow.ldByte (x : Nibble) (kk : Byte) : InTableRow.Statement (.ldByte x kk) := ⟨_, rfl, mask_xkk _ _ _⟩
theorem InTableRow.addByte (x : Nibble) (kk : Byte) : InTableRow.Statement (.addByte x kk) := ⟨_, rfl, mask_xkk _ _ _⟩
theorem InTableRow.ldReg (x y : Nibble) : InTableRow.Statement (.ldReg x y) := ⟨_, rfl, mask_xy _ _ _ _⟩
theorem InTableRow.orReg (x y : Nibble) : InTableRow.Statement (.orReg x y) := ⟨_, rfl, mask_xy _ _ _ _⟩
theorem InTableRow.andReg (x y : Nibble) : InTableRow.Statement (.andReg x y) := ⟨_, rfl, mask_xy _ _ _ _⟩
theorem InTableRow.xorReg (x y : Nibble) : InTableRow.Statement (.xorReg x y) := ⟨_, rfl, mask_xy _ _ _ _⟩
theorem InTableRow.addReg (x y : Nibble) : InTableRow.Statement (.addReg x y) := ⟨_, rfl, mask_xy _ _ _ _⟩
theorem InTableRow.subReg (x y : Nibble) : InTableRow.Statement (.subReg x y) := ⟨_, rfl, mask_xy _ _ _ _⟩
theorem InTableRow.shr (x y : Nibble) : InTableRow.Statement (.shr x y) := ⟨_, rfl, mask_xy _ _ _ _⟩
theorem InTableRow.subnReg (x y : Nibble) : InTableRow.Statement (.subnReg x y) := ⟨_, rfl, mask_xy _ _ _ _⟩
theorem InTableRow.shl (x y : Nibble) : InTableRow.Statement (.shl x y) := ⟨_, rfl, mask_xy _ _ _ _⟩
theorem InTableRow.sneReg (x y : Nibble) : InTableRow.Statement (.sneReg x y) := ⟨_, rfl, mask_xy _ _ _ _⟩
theorem InTableRow.ldI (nnn : Addr) : InTableRow.Statement (.ldI nnn) := ⟨_, rfl, mask_nnn _ _⟩
theorem InTableRow.jpV0 (nnn : Addr) : InTableRow.Statement (.jpV0 nnn) := ⟨_, rfl, mask_nnn _ _⟩
theorem InTableRow.rnd (x : Nibble) (kk : Byte) : InTableRow.Statement (.rnd x kk) := ⟨_, rfl, mask_xkk _ _ _⟩
theorem InTableRow.drw (x y n : Nibble) : InTableRow.Statement (.drw x y n) := ⟨_, rfl, mask_xyn _ _ _ _⟩
theorem InTableRow.skp (x : Nibble) : InTableRow.Statement (.skp x) := ⟨_, rfl, mask_x _ _ _⟩
theorem InTableRow.sknp (x : Nibble) : InTableRow.Statement (.sknp x) := ⟨_, rfl, mask_x _ _ _⟩
theorem InTableRow.ldVxDT (x : Nibble) : InTableRow.Statement (.ldVxDT x) := ⟨_, rfl, mask_x _ _ _⟩
theorem InTableRow.ldVxK (x : Nibble) : InTableRow.Statement (.ldVxK x) := ⟨_, rfl, mask_x _ _ _⟩
theorem InTableRow.ldDTVx (x : Nibble) : InTableRow.Statement (.ldDTVx x) := ⟨_, rfl, mask_x _ _ _⟩
theorem InTableRow.ldSTVx (x : Nibble) : InTableRow.Statement (.ldSTVx x) := ⟨_, rfl, mask_x _ _ _⟩
theorem InTableRow.addI (x : Nibble) : InTableRow.Statement (.addI x) := ⟨_, rfl, mask_x _ _ _⟩
theorem InTableRow.ldF (x : Nibble) : InTableRow.Statement (.ldF x) := ⟨_, rfl, mask_x _ _ _⟩
theorem InTableRow.ldB (x : Nibble) : InTableRow.Statement (.ldB x) := ⟨_, rfl, mask_x _ _ _⟩
theorem InTableRow.storeRegs (x : Nibble) : InTableRow.Statement (.storeRegs x) := ⟨_, rfl, mask_x _ _ _⟩
theorem InTableRow.loadRegs (x : Nibble) : InTableRow.Statement (.loadRegs x) := ⟨_, rfl, mask_x _ _ _⟩

end Sys2Proof.Laws
end

