-- ==== Sys2Proof/Laws/Step.lean ====
section
/-! SUPPORT. What the step serves: a `Step`, or the host's next request. -/

namespace Sys2Proof.Machine

/-- When a `Step` is next it is served with its request, if there was one, taken off the schedule (log entry 3). -/
theorem step_of_stepIsNext {s : State} (h : StepIsNext s) : step s = coreStep { s with schedule := s.schedule.tail } := by
  rw [step, nextOperation]
  rcases h with h | h
  · rw [h]; cases s; simp at h; subst h; rfl
  · rw [h]; rfl

/-- A pending request is served on the state without it. -/
theorem step_of_cons {s : State} {e : Event} {rest : List Event} (h : s.schedule = e :: rest) :
    step s = runEvent e { s with schedule := rest } := by rw [step, nextOperation, h]

/-- A `Step` that is not enabled changes nothing (spec 40_step_cycle.md R90). -/
theorem coreStep_of_not_enabled {s : State} (h : ¬ Enabled s) : coreStep s = .next s := if_neg h

/-- An enabled `Step` checks the key-wait or fetches (R91). -/
theorem coreStep_of_enabled {s : State} (h : Enabled s) :
    coreStep s = if s.wait.valid then .next (keyWaitCheck s) else fetchExecute s := if_pos h

end Sys2Proof.Machine
end

