-- ==== Sys2Proof/Tests/Slice0.lean ====
section
/-! SUPPORT. Tests: each expected value is a vector of spec 95_test_vectors.md, a worked example of the instruction's rule, or a
boundary of a rule; then a witness for the hypotheses of each statement. -/

namespace Sys2Proof.Machine.Tests

/-- What a field of the next state is; nothing when there is no next state. -/
def after {α : Type} (a : Answer) (f : State → α) : Option α :=
  match a with
  | .next t => some (f t)
  | .fault _ => none
  | .refused _ => none

/-- The launch state with one register set. -/
def with1 (r : Nibble) (a : Byte) : State := setV State.reset r a

/-- The launch state with two registers set. -/
def with2 (r : Nibble) (a : Byte) (q : Nibble) (b : Byte) : State := setV (with1 r a) q b

/-- The launch state with bytes of memory written. -/
def withMem (a : Nat) (bs : List Byte) : State := storeBytes State.reset a bs

/-! ### Decoding: words written out bit by bit from 30_encoding.md R78 (samples of 95 section 2.1) -/

theorem test_decode_cls : decode 0b0000000011100000#16 = .instr (.cls) ∧ encode (.cls) = 0b0000000011100000#16 := by decide
theorem test_decode_ret : decode 0b0000000011101110#16 = .instr (.ret) ∧ encode (.ret) = 0b0000000011101110#16 := by decide
theorem test_decode_jp : decode 0b0001101010111100#16 = .instr (.jp 0xABC) ∧ encode (.jp 0xABC) = 0b0001101010111100#16 := by decide
theorem test_decode_call : decode 0b0010111111111111#16 = .instr (.call 0xFFF) ∧ encode (.call 0xFFF) = 0b0010111111111111#16 := by decide
theorem test_decode_seByte : decode 0b0011101001111111#16 = .instr (.seByte 10 0x7F) ∧ encode (.seByte 10 0x7F) = 0b0011101001111111#16 := by decide
theorem test_decode_sneByte : decode 0b0100000000000001#16 = .instr (.sneByte 0 0x01) ∧ encode (.sneByte 0 0x01) = 0b0100000000000001#16 := by decide
theorem test_decode_seReg : decode 0b0101101010110000#16 = .instr (.seReg 10 11) ∧ encode (.seReg 10 11) = 0b0101101010110000#16 := by decide
theorem test_decode_ldByte : decode 0b0110111100000000#16 = .instr (.ldByte 15 0x00) ∧ encode (.ldByte 15 0x00) = 0b0110111100000000#16 := by decide
theorem test_decode_addByte : decode 0b0111110011111111#16 = .instr (.addByte 12 0xFF) ∧ encode (.addByte 12 0xFF) = 0b0111110011111111#16 := by decide
theorem test_decode_ldReg : decode 0b1000000100100000#16 = .instr (.ldReg 1 2) ∧ encode (.ldReg 1 2) = 0b1000000100100000#16 := by decide
theorem test_decode_orReg : decode 0b1000000100100001#16 = .instr (.orReg 1 2) ∧ encode (.orReg 1 2) = 0b1000000100100001#16 := by decide
theorem test_decode_andReg : decode 0b1000000100100010#16 = .instr (.andReg 1 2) ∧ encode (.andReg 1 2) = 0b1000000100100010#16 := by decide
theorem test_decode_xorReg : decode 0b1000000100100011#16 = .instr (.xorReg 1 2) ∧ encode (.xorReg 1 2) = 0b1000000100100011#16 := by decide
theorem test_decode_addReg : decode 0b1000000100100100#16 = .instr (.addReg 1 2) ∧ encode (.addReg 1 2) = 0b1000000100100100#16 := by decide
theorem test_decode_subReg : decode 0b1000000100100101#16 = .instr (.subReg 1 2) ∧ encode (.subReg 1 2) = 0b1000000100100101#16 := by decide
theorem test_decode_shr : decode 0b1000000100100110#16 = .instr (.shr 1 2) ∧ encode (.shr 1 2) = 0b1000000100100110#16 := by decide
theorem test_decode_subnReg : decode 0b1000000100100111#16 = .instr (.subnReg 1 2) ∧ encode (.subnReg 1 2) = 0b1000000100100111#16 := by decide
theorem test_decode_shl : decode 0b1000000100101110#16 = .instr (.shl 1 2) ∧ encode (.shl 1 2) = 0b1000000100101110#16 := by decide
theorem test_decode_sneReg : decode 0b1001101010110000#16 = .instr (.sneReg 10 11) ∧ encode (.sneReg 10 11) = 0b1001101010110000#16 := by decide
theorem test_decode_ldI : decode 0b1010000100100011#16 = .instr (.ldI 0x123) ∧ encode (.ldI 0x123) = 0b1010000100100011#16 := by decide
theorem test_decode_jpV0 : decode 0b1011000100100011#16 = .instr (.jpV0 0x123) ∧ encode (.jpV0 0x123) = 0b1011000100100011#16 := by decide
theorem test_decode_rnd : decode 0b1100010111110000#16 = .instr (.rnd 5 0xF0) ∧ encode (.rnd 5 0xF0) = 0b1100010111110000#16 := by decide
theorem test_decode_drw : decode 0b1101000100100101#16 = .instr (.drw 1 2 5) ∧ encode (.drw 1 2 5) = 0b1101000100100101#16 := by decide
theorem test_decode_skp : decode 0b1110001110011110#16 = .instr (.skp 3) ∧ encode (.skp 3) = 0b1110001110011110#16 := by decide
theorem test_decode_sknp : decode 0b1110001110100001#16 = .instr (.sknp 3) ∧ encode (.sknp 3) = 0b1110001110100001#16 := by decide
theorem test_decode_ldVxDT : decode 0b1111001100000111#16 = .instr (.ldVxDT 3) ∧ encode (.ldVxDT 3) = 0b1111001100000111#16 := by decide
theorem test_decode_ldVxK : decode 0b1111001100001010#16 = .instr (.ldVxK 3) ∧ encode (.ldVxK 3) = 0b1111001100001010#16 := by decide
theorem test_decode_ldDTVx : decode 0b1111001100010101#16 = .instr (.ldDTVx 3) ∧ encode (.ldDTVx 3) = 0b1111001100010101#16 := by decide
theorem test_decode_ldSTVx : decode 0b1111001100011000#16 = .instr (.ldSTVx 3) ∧ encode (.ldSTVx 3) = 0b1111001100011000#16 := by decide
theorem test_decode_addI : decode 0b1111001100011110#16 = .instr (.addI 3) ∧ encode (.addI 3) = 0b1111001100011110#16 := by decide
theorem test_decode_ldF : decode 0b1111001100101001#16 = .instr (.ldF 3) ∧ encode (.ldF 3) = 0b1111001100101001#16 := by decide
theorem test_decode_ldB : decode 0b1111001100110011#16 = .instr (.ldB 3) ∧ encode (.ldB 3) = 0b1111001100110011#16 := by decide
theorem test_decode_storeRegs : decode 0b1111001101010101#16 = .instr (.storeRegs 3) ∧ encode (.storeRegs 3) = 0b1111001101010101#16 := by decide
theorem test_decode_loadRegs : decode 0b1111001101100101#16 = .instr (.loadRegs 3) ∧ encode (.loadRegs 3) = 0b1111001101100101#16 := by decide

theorem test_decode_illegal_group0 : decode 0x00E1#16 = .illegalOpcode 0x00E1#16 ∧ decode 0x0FFF#16 = .illegalOpcode 0x0FFF#16 ∧
    decode 0x0000#16 = .illegalOpcode 0x0000#16 := by decide
theorem test_decode_illegal_group59 : decode 0x5121#16 = .illegalOpcode 0x5121#16 ∧
    decode 0x912F#16 = .illegalOpcode 0x912F#16 := by decide
theorem test_decode_illegal_group8 : decode 0x8128#16 = .illegalOpcode 0x8128#16 ∧ decode 0x812D#16 = .illegalOpcode 0x812D#16 ∧
    decode 0x812F#16 = .illegalOpcode 0x812F#16 := by decide
theorem test_decode_illegal_groupEF : decode 0xE39F#16 = .illegalOpcode 0xE39F#16 ∧ decode 0xE300#16 = .illegalOpcode 0xE300#16 ∧
    decode 0xF375#16 = .illegalOpcode 0xF375#16 ∧ decode 0xF3FF#16 = .illegalOpcode 0xF3FF#16 := by decide
theorem test_decode_truncated : decodeBytes [0x12] = .truncated := by decide
/-- The byte at the lower address is the high byte (20_memory.md R52). -/
theorem test_decode_byte_order : decodeBytes [0x12, 0x06] = .instr (.jp 0x206) ∧ decodeTableWord 16 0x1206 = some (.jp 0x206) := by
  decide

/-! ### Well-formedness: an ill-formed term for each check (00_scope.md R6, 70 R205) -/

theorem test_wf_default : defaultParams.WF ∧ FontWF defaultFont ∧ ImageFits [0x12, 0x00] := by decide
theorem test_wf_refuses_shallow_stack : ¬ Params.WF { defaultParams with stackDepth := 11 } := by decide
theorem test_wf_refuses_narrow_display : ¬ Params.WF { defaultParams with displayW := 7 } := by decide
theorem test_wf_refuses_low_display : ¬ Params.WF { defaultParams with displayH := 14 } := by decide
theorem test_wf_refuses_long_image : ¬ ImageFits (List.replicate 3585 0x00) := by
  rw [ImageFits, List.length_replicate]; decide
theorem test_wf_refuses_short_font : ¬ FontWF (List.replicate 79 0x00) := by rw [FontWF, List.length_replicate]; decide

/-! ### Control transfer (95 section 2.2) -/

/-- Two slots occupied. -/
def nested : State := { State.reset with sp := 2, stack := [0x0111, 0x0456] ++ List.replicate 14 0 }
/-- The stack is full. -/
def full : State := { State.reset with sp := 16 }

theorem test_ret_pops_top : after (exec .ret nested) (fun t => (t.sp, t.pc, t.stack == nested.stack)) = some (1, 0x0456, true) := by
  decide
theorem test_ret_underflow : after (exec .ret State.reset) (fun t => (t.fault, t.pc)) =
    some (⟨.stackUnderflow, 0x0200, 0x00EE⟩, 0x0200) := by decide
theorem test_jp_top_odd : after (exec (.jp 0xFFF) State.reset) (·.pc) = some 0x0FFF := by decide
theorem test_call_last_slot : after (exec (.call 0x300) { State.reset with sp := 15 }) (fun t => (t.sp, t.pc, t.stack[15]?)) =
    some (16, 0x0300, some 0x0202) := by decide
theorem test_call_overflow : after (exec (.call 0x300) full) (fun t => (t.fault, t.pc, t.sp)) =
    some (⟨.stackOverflow, 0x0200, 0x2300⟩, 0x0200, 16) := by decide
theorem test_jpV0_leaves_12_bits : after (exec (.jpV0 0xFFF) (with1 0 0xFF)) (·.pc) = some 0x10FE := by decide
theorem test_jpV0_not_vx : after (exec (.jpV0 0x300) (with1 3 0x55)) (·.pc) = some 0x0300 := by decide
theorem test_seByte_skips : after (exec (.seByte 3 0x05) (with1 3 0x05)) (·.pc) = some 0x0204 := by decide
theorem test_seByte_wraps_pc : after (exec (.seByte 0 0x00) { State.reset with pc := 0xFFFC }) (·.pc) = some 0x0000 := by decide
theorem test_sneByte_equal : after (exec (.sneByte 10 0x00) State.reset) (·.pc) = some 0x0202 := by decide
theorem test_sneByte_differs : after (exec (.sneByte 10 0xFF) (with1 10 0xFE)) (·.pc) = some 0x0204 := by decide
theorem test_seReg_same : after (exec (.seReg 1 1) State.reset) (·.pc) = some 0x0204 := by decide
theorem test_seReg_differs : after (exec (.seReg 1 2) (with2 1 1 2 2)) (·.pc) = some 0x0202 := by decide
theorem test_sneReg_same : after (exec (.sneReg 1 1) State.reset) (·.pc) = some 0x0202 := by decide
theorem test_sneReg_differs : after (exec (.sneReg 1 2) (with2 1 1 2 2)) (·.pc) = some 0x0204 := by decide

/-! ### ALU (95 section 2.3, 42_alu.md R122 to R124) -/

/-- V[x] and VF after. -/
def result (x : Nibble) (t : State) : Byte × Byte := (getV t x, getV t 15)

theorem test_ldByte_vf : after (exec (.ldByte 15 0x7F) State.reset) (result 15) = some (0x7F, 0x7F) := by decide
theorem test_addByte_carry : after (exec (.addByte 2 0x01) (with1 2 0xFF)) (result 2) = some (0x00, 0x01) := by decide
theorem test_addByte_vf_is_flag : after (exec (.addByte 15 0xFE) (with1 15 0x05)) (result 15) = some (0x01, 0x01) := by decide
theorem test_ldReg_source : after (exec (.ldReg 1 2) (with2 1 0x11 2 0x22)) (fun t => (getV t 1, getV t 2)) =
    some (0x22, 0x22) := by decide
theorem test_orReg_keeps_vf : after (exec (.orReg 1 2) (setV (with2 1 0x11 2 0x22) 15 0x01)) (result 1) =
    some (0x33, 0x01) := by decide
theorem test_andReg : after (exec (.andReg 1 2) (with2 1 0x33 2 0x0F)) (result 1) = some (0x03, 0x00) := by decide
theorem test_xorReg : after (exec (.xorReg 1 2) (with2 1 0xAA 2 0xFF)) (result 1) = some (0x55, 0x00) := by decide
theorem test_xorReg_vf_destination : after (exec (.xorReg 15 1) (with2 15 0x05 1 0x03)) (result 15) = some (0x06, 0x06) := by decide
theorem test_addReg_carry : after (exec (.addReg 1 2) (with2 1 0xFF 2 0xFF)) (result 1) = some (0xFE, 0x01) := by decide
theorem test_addReg_old_vf : after (exec (.addReg 2 15) (with2 2 0xFF 15 0x01)) (result 2) = some (0x00, 0x01) := by decide
theorem test_subReg_borrow : after (exec (.subReg 1 2) (with2 1 0x10 2 0x11)) (result 1) = some (0xFF, 0x00) := by decide
theorem test_subReg_old_vf : after (exec (.subReg 2 15) (with2 2 0xFF 15 0x01)) (result 2) = some (0xFE, 0x01) := by decide
theorem test_shr_default_reads_vx : after (exec (.shr 1 2) (with2 1 0xFE 2 0x01)) (result 1) = some (0x7F, 0x00) := by decide
theorem test_shr_toggle_reads_vy : after (exec (.shr 0 1) { with2 0 0x01 1 0x81 with params := { defaultParams with shiftUsesVy := true } })
    (fun t => (result 0 t, getV t 1)) = some ((0x40, 0x01), 0x81) := by decide
theorem test_subnReg_direction : after (exec (.subnReg 1 2) (with2 1 0x10 2 0x11)) (result 1) = some (0x01, 0x01) := by decide
theorem test_subnReg_old_vf : after (exec (.subnReg 2 15) (with2 2 0xFF 15 0x01)) (result 2) = some (0x02, 0x00) := by decide
theorem test_shl_default_reads_vx : after (exec (.shl 1 2) (with2 1 0x7F 2 0x80)) (result 1) = some (0xFE, 0x00) := by decide
theorem test_shl_toggle_reads_vy : after (exec (.shl 0 1) { with2 0 0x01 1 0x81 with params := { defaultParams with shiftUsesVy := true } })
    (fun t => (result 0 t, getV t 1)) = some ((0x02, 0x01), 0x81) := by decide

/-! ### Random byte and index register (95 section 2.4) -/

/-- Whatever the byte is, a zero mask gives zero, and the counter moves. -/
theorem test_rnd_zero_mask : after (exec (.rnd 3 0x00) State.reset) (fun t => (getV t 3, t.rndCount)) = some (0x00, 1) := by
  simp [after, exec, execRnd]; rfl
theorem test_ldI_top : after (exec (.ldI 0xFFF) State.reset) (·.i) = some 0xFFF := by decide
theorem test_addI_smallest_overflow : after (exec (.addI 1) { with1 1 0xFF with i := 0xF01 }) (fun t => (t.i, getV t 15)) =
    some (0x000, 0x01) := by decide
theorem test_addI_toggle_off : after (exec (.addI 1)
    { with2 1 0x05 15 0x07 with i := 0xFFE, params := { defaultParams with addISetsVF := false } })
    (fun t => (t.i, getV t 15)) = some (0x003, 0x07) := by decide
theorem test_ldF_low_nibble : after (exec (.ldF 0) (with1 0 0xFF)) (·.i) = some 0x04B := by decide

/-! ### Display (95 section 2.5) -/

/-- Pixels (x, 0) of the next frame buffer for some x, VF and the flag. -/
def row0 (xs : List Nat) (t : State) : List Bool × Byte × Bool :=
  (xs.map (fun x => FrameBuffer.get t.fb (x, 0)), getV t 15, t.drawFlag)

/-- A sprite byte at 0x300 and I there. -/
def sprite (b : Byte) (s : State) : State := { storeBytes s 0x300 [b] with i := 0x300 }

/-- Pixel (1, 0) is on. -/
def lit : State := { State.reset with fb := FrameBuffer.toggle State.reset.fb (1, 0) }

theorem test_cls_sets_flag : after (exec .cls lit) (row0 [0, 1]) = some ([false, false], 0x00, true) := by decide
theorem test_drw_collision : after (exec (.drw 0 1 1) (sprite 0xC0 lit)) (row0 [0, 1]) = some ([true, false], 0x01, true) := by
  decide
theorem test_drw_wraps_right : after (exec (.drw 0 1 1) (sprite 0xFF (with1 0 0x3E))) (row0 [61, 62, 63, 0, 5, 6]) =
    some ([false, true, true, true, true, false], 0x00, true) := by decide

/-! ### Keypad and timers (95 section 2.6) -/

theorem test_skp_low_nibble : after (exec (.skp 2) { with1 2 0x17 with keys := 0x0080 }) (·.pc) = some 0x0204 := by decide
theorem test_skp_other_key : after (exec (.skp 2) { with1 2 0x07 with keys := 0x0100 }) (·.pc) = some 0x0202 := by decide
theorem test_sknp_up : after (exec (.sknp 2) (with1 2 0x07)) (·.pc) = some 0x0204 := by decide
theorem test_sknp_down : after (exec (.sknp 2) { with1 2 0x07 with keys := 0x0080 }) (·.pc) = some 0x0202 := by decide
theorem test_ldVxDT : after (exec (.ldVxDT 3) { State.reset with dt := 0x2A }) (fun t => (getV t 3, t.dt)) =
    some (0x2A, 0x2A) := by decide
theorem test_ldDTVx : after (exec (.ldDTVx 3) (with1 3 0x3C)) (fun t => (t.dt, t.st)) = some (0x3C, 0x00) := by decide
theorem test_ldSTVx : after (exec (.ldSTVx 3) (with1 3 0x05)) (fun t => (t.st, t.dt, soundOn t)) = some (0x05, 0x00, true) := by
  decide
theorem test_ldVxK_ignores_keys : after (exec (.ldVxK 3) { State.reset with keys := 0x0080 }) (fun t => (t.wait, t.pc, getV t 3)) =
    some (⟨true, 3⟩, 0x0202, 0x00) := by decide
theorem test_ldVxK_least_key : after (step { State.reset with wait := ⟨true, 3⟩, pc := 0x0202, keys := 0x1080 })
    (fun t => (getV t 3, t.wait.valid, t.pc)) = some (0x07, false, 0x0202) := by decide

/-! ### Memory transfer (95 section 2.7) -/

/-- Some bytes of memory. -/
def bytesAt (as : List Nat) (t : State) : List Byte := as.map (readMem t)

theorem test_ldB_digits : after (exec (.ldB 4) { with1 4 0x7B with i := 0x300 }) (bytesAt [0x2FF, 0x300, 0x301, 0x302, 0x303]) =
    some [0, 1, 2, 3, 0] := by decide
theorem test_ldB_wraps : after (exec (.ldB 0) { with1 0 0xFF with i := 0xFFF }) (bytesAt [0xFFF, 0x000, 0x001, 0x002]) =
    some [2, 5, 5, 0x90] := by decide
theorem test_storeRegs_wraps : after (exec (.storeRegs 2) { setV (with2 0 0xAA 1 0xBB) 2 0xCC with i := 0xFFE })
    (fun t => (bytesAt [0xFFD, 0xFFE, 0xFFF, 0x000, 0x001] t, t.i)) = some ([0, 0xAA, 0xBB, 0xCC, 0x90], 0xFFE) := by decide
theorem test_storeRegs_moves_index : after (exec (.storeRegs 1)
    { State.reset with i := 0x400, params := { defaultParams with memIncrementsI := true } }) (·.i) = some 0x402 := by decide
theorem test_loadRegs_inclusive : after (exec (.loadRegs 1) { setV (withMem 0x400 [0xFE, 0x02, 0x99]) 2 0x11 with i := 0x400 })
    (fun t => (getV t 0, getV t 1, getV t 2, t.i)) = some (0xFE, 0x02, 0x11, 0x400) := by decide
theorem test_loadRegs_moves_index_wrapping : after (exec (.loadRegs 15)
    { State.reset with i := 0xFF8, params := { defaultParams with memIncrementsI := true } })
    (fun t => (t.i, getV t 8)) = some (0x008, 0xF0) := by decide

/-! ### The step (95 sections 2.6, 2.8, 2.9) -/

/-- With nothing loaded the first fetch is 0x0000, which is illegal (70 R207). -/
theorem test_step_empty_image : after (step State.reset) (fun t => (t.fault, t.pc)) =
    some (⟨.illegalOpcode, 0x0200, 0x0000⟩, 0x0200) := by decide
theorem test_step_fetches_across_top : after (step { withMem 0xFFF [0x6A] with pc := 0x0FFF }) (fun t => (getV t 10, t.pc)) =
    some (0xF0, 0x1001) := by decide
theorem test_step_runs_placed_word : after (step (State.reset.withFetchWord 16 0x6A7F)) (fun t => (getV t 10, t.pc)) =
    some (0x7F, 0x0202) := by decide
theorem test_tick_floor : after (step { State.reset with dt := 0x02, schedule := [.tick] }) (fun t => (t.dt, t.st)) =
    some (0x01, 0x00) := by decide
theorem test_tick_in_key_wait : after (step { State.reset with dt := 0x05, wait := ⟨true, 3⟩, schedule := [.tick] }) (·.dt) =
    some 0x04 := by decide
/-- A step request while paused only leaves the schedule; on a held key-wait too (60 R193). -/
theorem test_step_paused : after (step { State.reset with run := .paused, wait := ⟨true, 3⟩, keys := 0x0080, schedule := [.step] })
    (fun t => (getV t 3, t.wait, t.pc, t.run)) = some (0x00, ⟨true, 3⟩, 0x0200, .paused) := by decide
/-- A step request served in a key-wait, with a tick still pending. -/
theorem test_step_request_in_key_wait : after (step { State.reset with wait := ⟨true, 15⟩, keys := 0x8000, schedule := [.step, .tick] })
    (fun t => (getV t 15, t.wait.valid, t.schedule)) = some (0x0F, false, [.tick]) := by decide
theorem test_tick_paused : after (step { State.reset with dt := 0x05, run := .paused, schedule := [.tick] }) (·.dt) =
    some 0x05 := by decide
theorem test_outputs : runBits .halted = 0b11 ∧ faultBits .stackUnderflow = 3 ∧ fbElement lit 1 = true ∧ fbElement lit 64 = false := by
  decide
theorem test_core_reset : Sys2Proof.core.reset = State.reset := rfl
theorem test_load_too_large : load defaultFont (some (List.replicate 3585 0x00)) State.reset = .error .imageTooLarge := by
  rw [load, List.length_replicate]; rfl

/-! ### Witnesses: concrete states and operands that meet the hypotheses of each statement of Certificates/Slice0/Obligations.lean,
clause by clause, at the boundary where there is one -/

theorem test_witness_ReturnPopsOrUnderflows : State.reset.sp = 0 ∧
    (nested.sp ≠ 0 ∧ nested.stack[nested.sp - 1]? = some 0x0456) ∧
    (full.sp ≠ 0 ∧ full.stack[full.sp - 1]? = some 0x0000) := by decide
theorem test_witness_JumpGoesToAddress : ((0x0200#16).toNat < 0x1000 ∧ (0x200#12).toNat = (0x0200#16).toNat % 4096) ∧
    ((0x0FFF#16).toNat < 0x1000 ∧ (0xFFF#12).toNat = (0x0FFF#16).toNat % 4096) := by decide
/-- The last free slot, and no free slot. -/
theorem test_witness_CallPushesOrOverflows : full.sp = full.params.stackDepth ∧
    ({ full with sp := 15 }.sp < { full with sp := 15 }.params.stackDepth ∧
      { full with sp := 15 }.sp < { full with sp := 15 }.stack.length) := by decide
theorem test_witness_CallThenReturnRestores : (State.reset.sp < State.reset.params.stackDepth ∧ State.reset.sp < State.reset.stack.length) ∧
    { full with sp := 15 }.sp < { full with sp := 15 }.params.stackDepth ∧ (1 : Nat) ≠ State.reset.sp := by decide
/-- Both outcomes of the comparisons of `SE` and `SNE` with a byte. -/
theorem test_witness_SkipIfEqualByte : getV (with1 3 0x05) 3 = 0x05 ∧ getV (with1 3 0x05) 3 ≠ 0x06 := by decide
theorem test_witness_SkipIfNotEqualByte : getV (with1 3 0x05) 3 ≠ 0x06 ∧ getV (with1 3 0x05) 3 = 0x05 := by decide
/-- Both outcomes of the comparisons with a register, and the bottom nibbles that must be 0. -/
theorem test_witness_SkipIfEqualRegisters : (0x1#4 ≠ 0#4 ∧ 0xF#4 ≠ 0#4) ∧
    getV (with2 1 7 2 7) 1 = getV (with2 1 7 2 7) 2 ∧ getV (with2 1 1 2 2) 1 ≠ getV (with2 1 1 2 2) 2 := by decide
theorem test_witness_SkipIfNotEqualRegisters : (0x1#4 ≠ 0#4 ∧ 0xF#4 ≠ 0#4) ∧
    getV (with2 1 1 2 2) 1 ≠ getV (with2 1 1 2 2) 2 ∧ getV (with2 1 7 2 7) 1 = getV (with2 1 7 2 7) 2 := by decide
/-- The register clauses of the result statements: a destination that is not VF, and registers that are no destination. -/
theorem test_witness_register_clauses : ((0x0#4 ≠ 15#4) ∧ (0xE#4 ≠ 15#4)) ∧ (0x1#4 ≠ 0x0#4 ∧ 0x1#4 ≠ 15#4) ∧
    (15#4 ≠ 0x0#4) := by decide
theorem test_witness_XorCombinesBits_same : (0x1#4 : Nibble) = 0x1#4 := rfl
/-- Each setting of the shift toggle gives its source. -/
theorem test_witness_ShiftByToggle :
    (0x81#8 = if ({ with2 0 0x01 1 0x81 with params := { defaultParams with shiftUsesVy := true } } : State).params.shiftUsesVy = true
      then getV (with2 0 0x01 1 0x81) 1 else getV (with2 0 0x01 1 0x81) 0) ∧
    (0x01#8 = if (with2 0 0x01 1 0x81).params.shiftUsesVy = true
      then getV (with2 0 0x01 1 0x81) 1 else getV (with2 0 0x01 1 0x81) 0) := by decide
theorem test_witness_RandomByteIsMasked : (0xF0#8).getLsbD 0 = false ∧ (0x7F#8).getLsbD 7 = false := by decide
theorem test_witness_AddIndexByToggle : State.reset.params.addISetsVF = true ∧
    ({ State.reset with params := { defaultParams with addISetsVF := false } } : State).params.addISetsVF = false := by decide

/-- A machine of the least size the parameters allow. -/
def smallest : Params := { defaultParams with stackDepth := 12, displayW := 8, displayH := 15 }

/-- The display of a launch is of its size, for the default and for the least display. -/
theorem test_witness_draw_display : (State.reset.params.WF ∧ FrameBuffer.WF State.reset.params State.reset.fb) ∧
    (smallest.WF ∧ FrameBuffer.WF smallest (FrameBuffer.blank smallest)) := by decide
/-- From I = 0 row 0 is 0xF0: pixel (0, 0) is addressed and off in the launch state; pixel (1, 0) is addressed and on in `lit`. -/
theorem test_witness_draw_addressed : (Addressed State.reset 0 0 1 (0, 0) ∧ FrameBuffer.get State.reset.fb (0, 0) = false) ∧
    (Addressed lit 0 0 1 (1, 0) ∧ FrameBuffer.get lit.fb (1, 0) = true) :=
  ⟨⟨⟨0, 0, by decide, by decide, by decide, by decide, by decide⟩, by decide⟩,
    ⟨⟨0, 1, by decide, by decide, by decide, by decide, by decide⟩, by decide⟩⟩
/-- With n = 0 no pixel is addressed, so none collides and none toggles. -/
theorem test_witness_draw_not_addressed : (∀ px, ¬ Addressed State.reset 0 0 0 px) ∧
    ¬ ∃ px, Addressed State.reset 0 0 0 px ∧ FrameBuffer.get State.reset.fb px = true := by
  have h : ∀ px, ¬ Addressed State.reset 0 0 0 px := fun px ⟨r, _, hr, _⟩ => Nat.not_lt_zero r hr
  exact ⟨h, fun ⟨px, hp, _⟩ => h px hp⟩
theorem test_witness_DrawTwiceRestoresDisplay : (0x0#4 ≠ 15#4 ∧ 0xE#4 ≠ 15#4) ∧ State.reset.params.WF ∧
    FrameBuffer.WF State.reset.params State.reset.fb := by decide
/-- Key 15 by the low nibble of 0xFF, down and up. -/
theorem test_witness_SkipIfKey : ({ with1 2 0xFF with keys := 0x8000 } : State).keys.getLsbD ((getV (with1 2 0xFF) 2).toNat % 16) = true ∧
    (with1 2 0xFF).keys.getLsbD ((getV (with1 2 0xFF) 2).toNat % 16) = false := by decide
theorem test_witness_WriteDelayTimer : Enabled State.reset := by decide

/-- A key is awaited into V3. -/
def waiting (keys : Word) : State := { State.reset with wait := ⟨true, 3⟩, keys := keys }

/-- With an empty schedule, and with a step request before a tick. -/
theorem test_witness_KeyWait_gate : (StepIsNext (waiting 0) ∧ StepIsNext { waiting 0 with schedule := [.step, .tick] }) ∧
    Enabled (waiting 0) ∧ (waiting 0).wait.valid = true := by decide
theorem test_witness_KeyWait_no_key : ∀ k, k < 16 → (waiting 0).keys.getLsbD k = false := by decide
theorem test_witness_KeyWait_key0 : 0 < 16 ∧ (waiting 0x8001).keys.getLsbD 0 = true ∧
    ∀ j, j < 0 → (waiting 0x8001).keys.getLsbD j = false := by decide
theorem test_witness_KeyWait_key15 : 15 < 16 ∧ (waiting 0x8000).keys.getLsbD 15 = true ∧
    ∀ j, j < 15 → (waiting 0x8000).keys.getLsbD j = false := by decide
/-- Addresses next to a store that wraps: I = 0xFFF stores at 0xFFF, 0x000, 0x001. -/
theorem test_witness_StoreDecimalDigits : (∀ k, k < 3 → 0x002 % 4096 ≠ ((0xFFF#12).toNat + k) % 4096) ∧
    (∀ k, k < 3 → 0xFFE % 4096 ≠ ((0xFFF#12).toNat + k) % 4096) := by decide
theorem test_witness_StoreRegistersInclusive : ((0xF#4).toNat ≤ (0xF#4).toNat ∧ (0x0#4).toNat ≤ (0xF#4).toNat) ∧
    (∀ k, k ≤ (0x2#4).toNat → 0x001 % 4096 ≠ ((0xFFE#12).toNat + k) % 4096) ∧
    (∀ k, k ≤ (0x2#4).toNat → 0xFFD % 4096 ≠ ((0xFFE#12).toNat + k) % 4096) := by decide
theorem test_witness_LoadRegistersInclusive : (0x1#4).toNat ≤ (0x1#4).toNat ∧ (0x1#4).toNat < (0x2#4).toNat := by decide
theorem test_witness_EncodeAfterDecode : decode 0x1ABC#16 = .instr (.jp 0xABC) := by decide

/-- About to fetch `LD VA, 0x7F`. -/
def placed : State := withMem 0x200 [0x6A, 0x7F]

theorem test_witness_StepRuns_fetching : Fetching placed ∧ decode (fetchedWord placed) = .instr (.ldByte 10 0x7F) := by decide
theorem test_witness_StepRuns_scheduled : ({ placed with schedule := [.step, .tick] } : State).schedule = .step :: [.tick] ∧
    Enabled { placed with schedule := [.step, .tick] } ∧ ({ placed with schedule := [.step, .tick] } : State).wait.valid = false ∧
    decode (fetchedWord { placed with schedule := [.step, .tick] }) = .instr (.ldByte 10 0x7F) := by decide
theorem test_witness_UnmatchedWordFaults : (StepIsNext State.reset ∧ StepIsNext { State.reset with schedule := [.step] }) ∧
    Enabled State.reset ∧ State.reset.wait.valid = false ∧
    ∀ k m, opcodeRow k = some m → fetchedWord State.reset &&& m.2 ≠ m.1 := by
  refine ⟨by decide, by decide, by decide, fun k m h => ?_⟩
  rw [show fetchedWord State.reset = 0x0000#16 from by decide]
  unfold opcodeRow at h
  split at h <;> cases h <;> decide
/-- RET with an empty stack does change FAULT. -/
theorem test_witness_OnlyCallAndReturnFault : (full.sp = full.params.stackDepth ∧ State.reset.sp = 0) ∧
    State.reset.sp ≤ State.reset.params.stackDepth ∧
    exec .ret State.reset = .next (raiseFault .stackUnderflow 0x00EE State.reset) ∧
    (raiseFault .stackUnderflow 0x00EE State.reset).fault ≠ State.reset.fault :=
  ⟨by decide, by decide, rfl, by decide⟩

/-- A fault is recorded. -/
def faulted : State := raiseFault .illegalOpcode 0x0000 State.reset

theorem test_witness_FaultFreezesMachine : faulted.fault.code ≠ .none ∧ faulted.schedule = [] ∧
    ({ faulted with schedule := [.step] } : State).schedule = .step :: [] ∧
    ({ faulted with schedule := [.tick] } : State).schedule = .tick :: [] := by decide
theorem test_witness_FaultFreezesMachine_answers : step { faulted with schedule := [.keys 0xFFFF] } =
    .next { faulted with keys := 0xFFFF } := rfl
theorem test_witness_HaltedIsTerminal : ({ State.reset with run := .halted } : State).run = .halted := rfl
theorem test_witness_HostRequests : ({ State.reset with schedule := [.pause] } : State).schedule = .pause :: [] ∧
    ({ State.reset with run := .paused, schedule := [.resume] } : State).schedule = .resume :: [] ∧
    ({ State.reset with schedule := [.quit] } : State).schedule = .quit :: [] ∧
    ({ State.reset with schedule := [.keys 0x0001] } : State).schedule = .keys 0x0001 :: [] ∧
    ({ State.reset with schedule := [.ackDraw] } : State).schedule = .ackDraw :: [] := by decide
theorem test_witness_TickCountsDownWhenEnabled : ({ State.reset with schedule := [.tick] } : State).schedule = .tick :: [] ∧
    Enabled { State.reset with schedule := [.tick] } := by decide
/-- Not enabled three ways: paused with nothing pending, faulted before a tick, halted before a step. -/
theorem test_witness_TickCountsDownWhenEnabled_disabled :
    (¬ Enabled { State.reset with run := .paused } ∧ ({ State.reset with run := .paused } : State).schedule = []) ∧
    (¬ Enabled { faulted with schedule := [.tick] } ∧ ({ faulted with schedule := [.tick] } : State).schedule = .tick :: []) ∧
    (¬ Enabled { State.reset with run := .halted, schedule := [.step] } ∧
      ({ State.reset with run := .halted, schedule := [.step] } : State).schedule = .step :: []) := by decide
theorem test_witness_PauseHoldsEverything : ({ State.reset with run := .paused } : State).run = .paused ∧
    StepIsNext { State.reset with run := .paused } ∧ StepIsNext { State.reset with run := .paused, schedule := [.step] } ∧
    ({ State.reset with run := .paused, schedule := [.tick] } : State).schedule = .tick :: [] := by decide
theorem test_witness_SelfJumpIsQuiescent : Enabled (withMem 0x200 [0x12, 0x00]) ∧ (withMem 0x200 [0x12, 0x00]).wait.valid = false ∧
    AtSelfJump (withMem 0x200 [0x12, 0x00]) ∧ (withMem 0x200 [0x12, 0x00]).schedule = [] ∧
    ({ withMem 0x200 [0x12, 0x00] with schedule := [.step, .tick] } : State).schedule = .step :: [.tick] :=
  ⟨by decide, by decide, ⟨by decide, by decide, by decide⟩, by decide, by decide⟩
/-- At the top of memory: the second byte stands at address 0. -/
theorem test_witness_SelfJumpIsQuiescent_top : Enabled { withMem 0xFFF [0x1F, 0xFF] with pc := 0x0FFF } ∧
    AtSelfJump { withMem 0xFFF [0x1F, 0xFF] with pc := 0x0FFF } := ⟨by decide, by decide, by decide, by decide⟩
/-- An instruction of each kind completes: a flag writer, one that writes no flag, and one whose flag is off by the toggle. -/
theorem test_witness_FlagRegisterWriters : (∃ t, exec (.addByte 0 1) State.reset = .next t) ∧ writesFlag defaultParams (.addByte 0 1) ∧
    (∃ t, exec (.orReg 0 1) State.reset = .next t) ∧ ¬ writesFlag defaultParams (.orReg 0 1) ∧ ¬ namesDest (.orReg 0 1) 15#4 ∧
    ¬ writesFlag { defaultParams with addISetsVF := false } (.addI 0) :=
  ⟨⟨_, rfl⟩, trivial, ⟨_, rfl⟩, id, by simp [namesDest], by simp [writesFlag]⟩
theorem test_witness_EachStateHasItsWriters : (∃ t, exec (.ldReg 0 1) { State.reset with drawFlag := true } = .next t) ∧
    (¬ namesDest (.ldReg 0 1) 0x2#4 ∧ ¬ (0x2#4 = 15#4 ∧ writesFlag defaultParams (.ldReg 0 1))) ∧
    (¬ namesDest (.ldReg 0 1) 15#4 ∧ ¬ (15#4 = 15#4 ∧ writesFlag defaultParams (.ldReg 0 1))) ∧
    ¬ writesIndex defaultParams (.ldReg 0 1) ∧ ¬ writesIndex defaultParams (.storeRegs 1) :=
  ⟨⟨_, rfl⟩, ⟨by simp [namesDest], by simp⟩, ⟨by simp [namesDest], fun h => h.2⟩, id, by simp [writesIndex, defaultParams]⟩
theorem test_witness_OnlyKeySkipsReadKeypad : (∀ x, Instr.cls ≠ .skp x ∧ Instr.cls ≠ .sknp x) ∧
    ∃ t, exec .cls State.reset = .next t := ⟨by decide, _, rfl⟩
theorem test_witness_SoundTimerIsUnread : (∀ x, Instr.cls ≠ .ldSTVx x) ∧ (∃ t, exec .cls State.reset = .next t) ∧
    (∃ x, Instr.ldSTVx 3 = .ldSTVx x) ∧ ∃ t, exec (.ldSTVx 3) State.reset = .next t :=
  ⟨by decide, ⟨_, rfl⟩, ⟨3, rfl⟩, _, rfl⟩
theorem test_witness_ResetIsLaunchState : (0 < 80 ∧ 79 < 80) ∧ (80 ≤ 80 ∧ 80 < 4096) ∧ 80 ≤ 4095 ∧ 4095 < 4096 := by decide
theorem test_witness_LoadFailsByName : (List.replicate 3585 (0x00 : Byte)).length > 4096 - 0x200 ∧
    (List.replicate 3584 (0x00 : Byte)).length ≤ 4096 - 0x200 := by
  rw [List.length_replicate, List.length_replicate]; decide
theorem test_witness_LoadGivesLaunchState : defaultParams.WF ∧ smallest.WF ∧ FontWF defaultFont ∧ ImageFits [] ∧
    ImageFits (List.replicate 3584 0x00) := by
  refine ⟨by decide, by decide, by decide, by decide, ?_⟩
  rw [ImageFits, List.length_replicate]; decide
/-- A state of the invariant in the middle of a run: one call deep, on the smallest machine. -/
theorem test_witness_StepKeepsInvariantAndAnswers : Inv { State.reset with
    params := smallest, sp := 1, stack := 0x0202 :: List.replicate 11 0, fb := FrameBuffer.blank smallest, pc := 0x0300 } :=
  ⟨by decide, Memory.WF_nil, by decide, by decide, FrameBuffer.WF_blank _, fun _ => ⟨rfl, rfl⟩, fun h => absurd rfl h⟩
/-- A faulted state of the invariant. -/
theorem test_witness_StepKeepsInvariantAndAnswers_faulted : Inv { State.reset with
    pc := 0x0FFF, fault := ⟨.illegalOpcode, 0x0FFF, 0x0000⟩ } :=
  ⟨by decide, Memory.WF_nil, by decide, by decide, FrameBuffer.WF_blank _, fun h => absurd h (by decide), fun _ => rfl⟩

end Sys2Proof.Machine.Tests
end

section
/-! PROOFS. Control transfer (spec 41_control_transfer.md): what the decoder answers on the words of this family, one equation per
outcome of each instruction's meaning, and the statements about them. -/

namespace Sys2Proof

/-! ### The words of `JP`, `CALL`, `SE`, `SNE` (spec 30_encoding.md R74, R82) -/

theorem decode_top1 {w : Word} (h : fieldTop w = 0x1) : decode w = .instr (.jp (fieldNNN w)) := by simp [decode, h]
theorem decode_top2 {w : Word} (h : fieldTop w = 0x2) : decode w = .instr (.call (fieldNNN w)) := by simp [decode, h]
theorem decode_top3 {w : Word} (h : fieldTop w = 0x3) : decode w = .instr (.seByte (fieldX w) (fieldKK w)) := by
  simp [decode, h]
theorem decode_top4 {w : Word} (h : fieldTop w = 0x4) : decode w = .instr (.sneByte (fieldX w) (fieldKK w)) := by
  simp [decode, h]

/-- A form whose bottom nibble must be 0 is legal when it is (R82). -/
theorem decodeN0_zero (t x y : Nibble) (i : Instr) : decodeN0 (t ++ x ++ y ++ 0x0#4) i = .instr i :=
  if_pos (fieldN_xyn t x y 0x0#4)

/-- A form whose bottom nibble must be 0 is illegal when it is not (R82). -/
theorem decodeN0_ne_zero (t x y : Nibble) {n : Nibble} (hn : n ≠ 0#4) (i : Instr) :
    decodeN0 (t ++ x ++ y ++ n) i = .illegalOpcode (t ++ x ++ y ++ n) :=
  if_neg (by rwa [fieldN_xyn])

end Sys2Proof

namespace Sys2Proof.Machine

/-! ### The target of a jump, and a skip by its condition -/

/-- The target of `JP` and `CALL` as a number (R73). -/
theorem targetOf_eq (nnn : Addr) : targetOf nnn = BitVec.ofNat 16 nnn.toNat := (BitVec.ofNat_toNat 16 nnn).symm

/-- A target equal to PC modulo 4096 is PC itself when PC is below 0x1000 (R102). -/
theorem targetOf_eq_pc {s : State} {nnn : Addr} (hpc : s.pc.toNat < 0x1000) (hn : nnn.toNat = s.pc.toNat % 4096) :
    targetOf nnn = s.pc := by
  have hn' : nnn.toNat = s.pc.toNat := hn.trans (Nat.mod_eq_of_lt hpc)
  rw [targetOf_eq, hn', BitVec.ofNat_toNat, BitVec.setWidth_eq]

/-- A skip that happens moves PC past the next instruction, and nothing else (R100). -/
theorem skipIf_of {s : State} {c : Prop} [Decidable c] (h : c) :
    skipIf s (decide c) = { s with pc := BitVec.ofNat 16 (s.pc.toNat + 4) } := by
  rw [skipIf_eq, decide_eq_true h, if_pos rfl]

/-- A skip that does not happen moves PC to the next instruction, and nothing else (R100). -/
theorem skipIf_of_not {s : State} {c : Prop} [Decidable c] (h : ¬ c) :
    skipIf s (decide c) = { s with pc := BitVec.ofNat 16 (s.pc.toNat + 2) } := by
  rw [skipIf_eq, decide_eq_false h, if_neg Bool.false_ne_true]

/-! ### The meanings, one equation per outcome -/

theorem exec_jp (nnn : Addr) (s : State) : exec (.jp nnn) s = .next (jumpTo s (targetOf nnn)) := rfl

theorem exec_seByte (x : Nibble) (kk : Byte) (s : State) :
    exec (.seByte x kk) s = .next (skipIf s (decide (getV s x = kk))) := rfl

theorem exec_sneByte (x : Nibble) (kk : Byte) (s : State) :
    exec (.sneByte x kk) s = .next (skipIf s (decide (getV s x ≠ kk))) := rfl

theorem exec_seReg (x y : Nibble) (s : State) :
    exec (.seReg x y) s = .next (skipIf s (decide (getV s x = getV s y))) := rfl

theorem exec_sneReg (x y : Nibble) (s : State) :
    exec (.sneReg x y) s = .next (skipIf s (decide (getV s x ≠ getV s y))) := rfl

/-- `RET` on an empty stack (R173, D5). -/
theorem exec_ret_of_empty {s : State} (h : s.sp = 0) :
    exec .ret s = .next (raiseFault .stackUnderflow 0x00EE#16 s) := if_pos h

/-- `RET` with an occupied slot on top (R101). -/
theorem exec_ret_of_slot {s : State} {a : Word} (h : s.sp ≠ 0) (ha : s.stack[s.sp - 1]? = some a) :
    exec .ret s = .next (jumpTo { s with sp := s.sp - 1 } a) := by
  simp only [exec, execRet, if_neg h, popReturn_eq s a ha]

/-- `CALL` at the capacity (R172, D5). -/
theorem exec_call_of_full {s : State} (nnn : Addr) (h : ¬ s.sp < s.params.stackDepth) :
    exec (.call nnn) s = .next (raiseFault .stackOverflow (0x2#4 ++ nnn) s) := if_neg h

/-- `CALL` below the capacity, with slot SP there to be written (R103). -/
theorem exec_call_of_slot {s : State} (nnn : Addr) (h : s.sp < s.params.stackDepth) (hs : s.sp < s.stack.length) :
    exec (.call nnn) s =
      .next (jumpTo { s with stack := s.stack.set s.sp (nextPc s), sp := s.sp + 1 } (targetOf nnn)) := by
  simp only [exec, execCall, if_pos h, pushReturn_eq s (nextPc s) hs]

/-! ### The statements -/

/-- Settles O1: the pop is `popReturn`'s, and the underflow is `raiseFault`, which writes FAULT alone. -/
theorem returnPopsOrUnderflows : Obligations.ReturnPopsOrUnderflows :=
  ⟨by decide, fun _ => ⟨exec_ret_of_empty, fun _ => exec_ret_of_slot⟩⟩

/-- Settles O2: the self-jump writes to PC the value it has. -/
theorem jumpGoesToAddress : Obligations.JumpGoesToAddress := by
  refine fun nnn => ⟨?decodes, fun s => ⟨?jumps, fun hpc hn => ?selfJump⟩⟩
  case decodes => rw [decode_top1 (fieldTop_nnn 0x1#4 nnn), fieldNNN_nnn]
  case jumps => rw [exec_jp, targetOf_eq]; rfl
  case selfJump => rw [exec_jp, targetOf_eq_pc hpc hn]; rfl

/-- Settles O3: the push is `pushReturn`'s with PC + 2, and the overflow is `raiseFault`, which writes FAULT alone. -/
theorem callPushesOrOverflows : Obligations.CallPushesOrOverflows := by
  refine fun nnn => ⟨?decodes, fun s => ⟨fun h => exec_call_of_full nnn h.not_lt, fun h hs => ?pushes⟩⟩
  case decodes => rw [decode_top2 (fieldTop_nnn 0x2#4 nnn), fieldNNN_nnn]
  case pushes => rw [exec_call_of_slot nnn h hs, nextPc_eq, targetOf_eq]; rfl

/-- Settles O5: a skip on equality with the byte. -/
theorem skipIfEqualByte : Obligations.SkipIfEqualByte := by
  refine fun x kk => ⟨?decodes, fun s => ⟨fun h => ?skips, fun h => ?fallsThrough⟩⟩
  case decodes => rw [decode_top3 (fieldTop_xkk 0x3#4 x kk), fieldX_xkk, fieldKK_xkk]
  case skips => rw [exec_seByte, skipIf_of h]
  case fallsThrough => rw [exec_seByte, skipIf_of_not h]

/-- Settles O6: a skip on difference from the byte. -/
theorem skipIfNotEqualByte : Obligations.SkipIfNotEqualByte := by
  refine fun x kk => ⟨?decodes, fun s => ⟨fun h => ?skips, fun h => ?fallsThrough⟩⟩
  case decodes => rw [decode_top4 (fieldTop_xkk 0x4#4 x kk), fieldX_xkk, fieldKK_xkk]
  case skips => rw [exec_sneByte, skipIf_of h]
  case fallsThrough => rw [exec_sneByte, skipIf_of_not (not_not_intro h)]

/-- Settles O7: a skip on equality of the registers; the bottom nibble decides whether the word is legal. -/
theorem skipIfEqualRegisters : Obligations.SkipIfEqualRegisters := by
  refine fun x y => ⟨?decodes, fun n hn => ?illegal, fun s => ⟨fun h => ?skips, fun h => ?fallsThrough⟩⟩
  case decodes => rw [decode_top5 (fieldTop_xyn 0x5#4 x y 0x0#4), decodeN0_zero, fieldX_xyn, fieldY_xyn]
  case illegal => rw [decode_top5 (fieldTop_xyn 0x5#4 x y n), decodeN0_ne_zero _ _ _ hn]
  case skips => rw [exec_seReg, skipIf_of h]
  case fallsThrough => rw [exec_seReg, skipIf_of_not h]

/-- Settles O8: a skip on difference of the registers; the bottom nibble decides whether the word is legal. -/
theorem skipIfNotEqualRegisters : Obligations.SkipIfNotEqualRegisters := by
  refine fun x y => ⟨?decodes, fun n hn => ?illegal, fun s => ⟨fun h => ?skips, fun h => ?fallsThrough⟩⟩
  case decodes => rw [decode_top9 (fieldTop_xyn 0x9#4 x y 0x0#4), decodeN0_zero, fieldX_xyn, fieldY_xyn]
  case illegal => rw [decode_top9 (fieldTop_xyn 0x9#4 x y n), decodeN0_ne_zero _ _ _ hn]
  case skips => rw [exec_sneReg, skipIf_of h]
  case fallsThrough => rw [exec_sneReg, skipIf_of_not (not_not_intro h)]

end Sys2Proof.Machine
end

section
/-! PROOFS. Arithmetic and logic (spec 42_alu.md): what the decoder answers on the words of this family, what a completed register
write leaves behind with and without a flag, and the statements about the moves, the bitwise forms and the sums. -/

namespace Sys2Proof

/-! ### The words of `LD Vx, byte`, `ADD Vx, byte` and group 0x8 (spec 30_encoding.md R74, R75) -/

theorem decode_top6 {w : Word} (h : fieldTop w = 0x6) : decode w = .instr (.ldByte (fieldX w) (fieldKK w)) := by
  simp [decode, h]
theorem decode_top7 {w : Word} (h : fieldTop w = 0x7) : decode w = .instr (.addByte (fieldX w) (fieldKK w)) := by
  simp [decode, h]

theorem decodeGroup8_n0 {w : Word} (h : fieldN w = 0x0#4) : decodeGroup8 w = .instr (.ldReg (fieldX w) (fieldY w)) := by
  simp [decodeGroup8, h]
theorem decodeGroup8_n1 {w : Word} (h : fieldN w = 0x1#4) : decodeGroup8 w = .instr (.orReg (fieldX w) (fieldY w)) := by
  simp [decodeGroup8, h]
theorem decodeGroup8_n2 {w : Word} (h : fieldN w = 0x2#4) : decodeGroup8 w = .instr (.andReg (fieldX w) (fieldY w)) := by
  simp [decodeGroup8, h]
theorem decodeGroup8_n3 {w : Word} (h : fieldN w = 0x3#4) : decodeGroup8 w = .instr (.xorReg (fieldX w) (fieldY w)) := by
  simp [decodeGroup8, h]
theorem decodeGroup8_n4 {w : Word} (h : fieldN w = 0x4#4) : decodeGroup8 w = .instr (.addReg (fieldX w) (fieldY w)) := by
  simp [decodeGroup8, h]

/-- A word that opens with 8 is decoded by its group. -/
theorem decode_8xyn (x y n : Nibble) : decode (0x8#4 ++ x ++ y ++ n) = decodeGroup8 (0x8#4 ++ x ++ y ++ n) :=
  decode_top8 (fieldTop_xyn 0x8#4 x y n)

end Sys2Proof

namespace Sys2Proof.Machine

/-! ### The meanings -/

theorem exec_ldByte (x : Nibble) (kk : Byte) (s : State) : exec (.ldByte x kk) s = .next (advance (setV s x kk)) := rfl

theorem exec_addByte (x : Nibble) (kk : Byte) (s : State) :
    exec (.addByte x kk) s = .next (advance (writeResult s x (addFlag (getV s x) kk))) := rfl

theorem exec_ldReg (x y : Nibble) (s : State) : exec (.ldReg x y) s = .next (advance (setV s x (getV s y))) := rfl

theorem exec_orReg (x y : Nibble) (s : State) :
    exec (.orReg x y) s = .next (advance (setV s x (getV s x ||| getV s y))) := rfl

theorem exec_andReg (x y : Nibble) (s : State) :
    exec (.andReg x y) s = .next (advance (setV s x (getV s x &&& getV s y))) := rfl

theorem exec_xorReg (x y : Nibble) (s : State) :
    exec (.xorReg x y) s = .next (advance (setV s x (getV s x ^^^ getV s y))) := rfl

theorem exec_addReg (x y : Nibble) (s : State) :
    exec (.addReg x y) s = .next (advance (writeResult s x (addFlag (getV s x) (getV s y)))) := rfl

/-! ### A register write that completes, without and with a flag (R110) -/

/-- One register gets the byte, PC moves on, and nothing else changes. -/
theorem advance_setV_spec {s t : State} {x : Nibble} {b : Byte} (ht : t = advance (setV s x b)) :
    t = { s with v := t.v, pc := BitVec.ofNat 16 (s.pc.toNat + 2) } ∧
      getV t x = b ∧ ∀ r, r ≠ x → getV t r = getV s r := by
  subst ht
  refine ⟨advance_eq (setV s x b), ?dest, fun r hr => ?others⟩
  case dest => rw [getV_advance, getV_setV_same]
  case others => rw [getV_advance, getV_setV_ne s x r b hr]

/-- The flag is written last, so it is in VF for every x, and the result is in V[x] when x is not VF (R110 law 3). -/
theorem advance_writeResult_spec {s t : State} {x : Nibble} {r : Byte × Bool} (ht : t = advance (writeResult s x r)) :
    t = { s with v := t.v, pc := BitVec.ofNat 16 (s.pc.toNat + 2) } ∧
      (x ≠ 15#4 → getV t x = r.1) ∧ getV t 15#4 = flagByte r.2 ∧
      ∀ q, q ≠ x → q ≠ 15#4 → getV t q = getV s q := by
  subst ht
  refine ⟨advance_eq (writeResult s x r), fun hx => ?dest, ?flag, fun q hqx hq => ?others⟩
  case dest => rw [getV_advance, getV_writeResult, if_neg hx, if_pos rfl]
  case flag => rw [getV_advance, getV_writeResult, if_pos rfl]
  case others => rw [getV_advance, getV_writeResult, if_neg hq, if_neg hqx]

/-- The carry as VF's byte (R112, R117). -/
theorem flagByte_addFlag (a b : Byte) : flagByte (addFlag a b).2 = if a.toNat + b.toNat > 255 then 1 else 0 := by
  simp only [flagByte_eq, addFlag, decide_eq_true_eq]

/-- A sum that completes: the byte added is read before any write, so it may itself be V[x] or VF (R112, R117). -/
theorem advance_add_spec {s t : State} {x : Nibble} {b : Byte}
    (ht : t = advance (writeResult s x (addFlag (getV s x) b))) :
    t = { s with v := t.v, pc := BitVec.ofNat 16 (s.pc.toNat + 2) } ∧
      (x ≠ 15#4 → (getV t x).toNat = ((getV s x).toNat + b.toNat) % 256) ∧
      getV t 15#4 = (if (getV s x).toNat + b.toNat > 255 then 1 else 0) ∧
      ∀ r, r ≠ x → r ≠ 15#4 → getV t r = getV s r := by
  obtain ⟨hframe, hdest, hflag, hothers⟩ := advance_writeResult_spec ht
  refine ⟨hframe, fun hx => ?sum, ?carry, hothers⟩
  case sum => rw [hdest hx, toNat_addFlag]
  case carry => rw [hflag, flagByte_addFlag]

/-! ### The statements -/

/-- Settles O10: a plain register write. -/
theorem loadByteSetsRegister : Obligations.LoadByteSetsRegister := by
  refine fun x kk => ⟨?decodes, fun s => ⟨_, exec_ldByte x kk s, advance_setV_spec rfl⟩⟩
  case decodes => rw [decode_top6 (fieldTop_xkk 0x6#4 x kk), fieldX_xkk, fieldKK_xkk]

/-- Settles O11: a sum with the byte of the word. -/
theorem addByteWithCarry : Obligations.AddByteWithCarry := by
  refine fun x kk => ⟨?decodes, fun s => ⟨_, exec_addByte x kk s, advance_add_spec rfl⟩⟩
  case decodes => rw [decode_top7 (fieldTop_xkk 0x7#4 x kk), fieldX_xkk, fieldKK_xkk]

/-- Settles O12: a register write of the old V[y]. -/
theorem loadRegisterCopies : Obligations.LoadRegisterCopies := by
  refine fun x y => ⟨?decodes, fun s => ⟨_, exec_ldReg x y s, advance_setV_spec rfl⟩⟩
  case decodes => rw [decode_8xyn, decodeGroup8_n0 (fieldN_xyn ..), fieldX_xyn, fieldY_xyn]

/-- Settles O13: VF is one of the registers the write does not reach, unless it is V[x]. -/
theorem orCombinesBits : Obligations.OrCombinesBits := by
  refine fun x y => ⟨?decodes, fun s => ?completes⟩
  case decodes => rw [decode_8xyn, decodeGroup8_n1 (fieldN_xyn ..), fieldX_xyn, fieldY_xyn]
  case completes =>
    obtain ⟨hframe, hdest, hothers⟩ := advance_setV_spec (s := s) (x := x) (b := getV s x ||| getV s y) rfl
    exact ⟨_, exec_orReg x y s, hframe, fun k => by rw [hdest, BitVec.getLsbD_or], hothers⟩

/-- Settles O14: a register write of the bitwise AND. -/
theorem andCombinesBits : Obligations.AndCombinesBits := by
  refine fun x y => ⟨?decodes, fun s => ?completes⟩
  case decodes => rw [decode_8xyn, decodeGroup8_n2 (fieldN_xyn ..), fieldX_xyn, fieldY_xyn]
  case completes =>
    obtain ⟨hframe, hdest, hothers⟩ := advance_setV_spec (s := s) (x := x) (b := getV s x &&& getV s y) rfl
    exact ⟨_, exec_andReg x y s, hframe, fun k => by rw [hdest, BitVec.getLsbD_and], hothers⟩

/-- Settles O15: with x = y the two operands are one byte, and cancel. -/
theorem xorCombinesBits : Obligations.XorCombinesBits := by
  refine fun x y => ⟨?decodes, fun s => ?completes⟩
  case decodes => rw [decode_8xyn, decodeGroup8_n3 (fieldN_xyn ..), fieldX_xyn, fieldY_xyn]
  case completes =>
    obtain ⟨hframe, hdest, hothers⟩ := advance_setV_spec (s := s) (x := x) (b := getV s x ^^^ getV s y) rfl
    have hcancel (hxy : x = y) : getV s x ^^^ getV s y = 0 := by rw [hxy, BitVec.xor_self]; rfl
    exact ⟨_, exec_xorReg x y s, hframe, fun k => by rw [hdest, BitVec.getLsbD_xor],
      fun hxy => hdest.trans (hcancel hxy), hothers⟩

/-- Settles O16: a sum with the old V[y], which may be VF. -/
theorem addRegistersWithCarry : Obligations.AddRegistersWithCarry := by
  refine fun x y => ⟨?decodes, fun s => ⟨_, exec_addReg x y s, advance_add_spec rfl⟩⟩
  case decodes => rw [decode_8xyn, decodeGroup8_n4 (fieldN_xyn ..), fieldX_xyn, fieldY_xyn]

end Sys2Proof.Machine
end

section
/-! PROOFS. The index register (spec 43_index_random.md): what the decoder answers on the words of `LD I` and `LD F`, the
meanings of the two, and the statements about them. -/

namespace Sys2Proof

/-! ### The words of `LD I, addr` and `LD F, Vx` (spec 30_encoding.md R74, R77) -/

theorem decode_topA {w : Word} (h : fieldTop w = 0xA) : decode w = .instr (.ldI (fieldNNN w)) := by simp [decode, h]

theorem decodeGroupF_29 {w : Word} (h : fieldKK w = 0x29#8) : decodeGroupF w = .instr (.ldF (fieldX w)) := by
  simp [decodeGroupF, h]

/-- A word that opens with F is decoded by its group. -/
theorem decode_Fxkk (x : Nibble) (kk : Byte) : decode (0xF#4 ++ x ++ kk) = decodeGroupF (0xF#4 ++ x ++ kk) :=
  decode_topF (fieldTop_xkk 0xF#4 x kk)

end Sys2Proof

namespace Sys2Proof.Machine

/-! ### The meanings -/

theorem exec_ldI (nnn : Addr) (s : State) : exec (.ldI nnn) s = .next (advance { s with i := nnn }) := rfl

theorem exec_ldF (x : Nibble) (s : State) : exec (.ldF x) s = .next (advance (setIndex s (glyphAddress s x))) := rfl

/-- The glyph of the low nibble, five bytes to a glyph, in terms of the whole register (R133). -/
theorem glyphAddress_eq (s : State) (x : Nibble) : glyphAddress s x = 5 * ((getV s x).toNat % 16) := by
  rw [glyphAddress, toNat_lowNibble]

/-! ### The statements -/

/-- Settles O22: the immediate is written to I as it stands, and PC moves on. -/
theorem loadIndexSetsI : Obligations.LoadIndexSetsI := by
  refine fun nnn => ⟨?decodes, fun s => ?completes⟩
  case decodes => rw [decode_topA (fieldTop_nnn 0xA#4 nnn), fieldNNN_nnn]
  case completes => rw [exec_ldI, advance_eq]

/-- Settles O24: I gets the glyph's address, and PC moves on. -/
theorem loadFontAddress : Obligations.LoadFontAddress := by
  refine fun x => ⟨?decodes, fun s => ?completes⟩
  case decodes => rw [decode_Fxkk, decodeGroupF_29 (fieldKK_xkk ..), fieldX_xkk]
  case completes => rw [exec_ldF, glyphAddress_eq, advance_eq]; rfl

end Sys2Proof.Machine
end

section
/-! PROOFS. The frame-buffer writer (spec 44_display.md): the meaning of `CLS`, the rows of a blank display, and the statement
about clearing it. -/

namespace Sys2Proof.Machine

/-- The clear is unconditional: neither the pixels nor the flag of the old state are looked at (R141). -/
theorem exec_cls (s : State) :
    exec .cls s = .next (advance { s with fb := FrameBuffer.blank s.params, drawFlag := true }) := rfl

/-- Every pixel of every row of a blank display is off. -/
theorem FrameBuffer.off_of_mem_blank {p : Params} {row : List Bool} (hrow : row ∈ FrameBuffer.blank p) :
    ∀ b ∈ row, b = false := by
  obtain rfl : row = List.replicate p.displayW false := List.eq_of_mem_replicate hrow
  exact fun _ => List.eq_of_mem_replicate

/-! ### The statement -/

/-- Settles O25: the new frame buffer is the blank one, which has the configured size and no pixel on. -/
theorem clearBlanksDisplay : Obligations.ClearBlanksDisplay := by
  refine ⟨by decide, fun s => ⟨_, exec_cls s, advance_eq _, ?rows, fun row hrow => ⟨?columns, ?off⟩⟩⟩
  case rows => exact (FrameBuffer.WF_blank s.params).1
  case columns => exact (FrameBuffer.WF_blank s.params).2 row hrow
  case off => exact FrameBuffer.off_of_mem_blank hrow

end Sys2Proof.Machine
end

section
/-! PROOFS. The delay timer (spec 45_keypad_timers.md): what the decoder answers on the words of `LD Vx, DT` and `LD DT, Vx`,
the meanings of the two, what a tick does to the timer, and the statements about reading and writing it. -/

namespace Sys2Proof

/-! ### The words of `LD Vx, DT` and `LD DT, Vx` (spec 30_encoding.md R77) -/

theorem decodeGroupF_07 {w : Word} (h : fieldKK w = 0x07#8) : decodeGroupF w = .instr (.ldVxDT (fieldX w)) := by
  simp [decodeGroupF, h]
theorem decodeGroupF_15 {w : Word} (h : fieldKK w = 0x15#8) : decodeGroupF w = .instr (.ldDTVx (fieldX w)) := by
  simp [decodeGroupF, h]

end Sys2Proof

namespace Sys2Proof.Machine

/-! ### The meanings, and the tick that follows -/

theorem exec_ldVxDT (x : Nibble) (s : State) : exec (.ldVxDT x) s = .next (advance (setV s x s.dt)) := rfl

theorem exec_ldDTVx (x : Nibble) (s : State) : exec (.ldDTVx x) s = .next (advance { s with dt := getV s x }) := rfl

/-- An enabled tick lowers the delay timer by one, floored at 0 (R183, R184). -/
theorem toNat_tick_dt {s : State} (h : Enabled s) : (tick s).dt.toNat = s.dt.toNat - 1 := by
  rw [tick_eq s h]; exact toNat_countDown s.dt

/-! ### The statements -/

/-- Settles O30: a register write of DT. -/
theorem readDelayTimer : Obligations.ReadDelayTimer := by
  refine fun x => ⟨?decodes, fun s => ⟨_, exec_ldVxDT x s, advance_setV_spec rfl⟩⟩
  case decodes => rw [decode_Fxkk, decodeGroupF_07 (fieldKK_xkk ..), fieldX_xkk]

/-- Settles O31: neither RUN nor FAULT is written, so the next tick is enabled as before and finds V[x] in DT. -/
theorem writeDelayTimer : Obligations.WriteDelayTimer := by
  refine fun x => ⟨?decodes, fun s => ⟨_, exec_ldDTVx x s, advance_eq _, fun henabled => ?ticks⟩⟩
  case decodes => rw [decode_Fxkk, decodeGroupF_15 (fieldKK_xkk ..), fieldX_xkk]
  case ticks => exact toNat_tick_dt (s := advance { s with dt := getV s x }) henabled

end Sys2Proof.Machine
end

section
/-! PROOFS. Memory transfer (spec 46_memory_transfer.md): what the decoder answers on the words of `LD B, Vx`, the decimal digits
of a byte, what a completed store at I leaves behind, and the statement about storing the digits. -/

namespace Sys2Proof

/-- The words of `LD B, Vx` (spec 30_encoding.md R77). -/
theorem decodeGroupF_33 {w : Word} (h : fieldKK w = 0x33#8) : decodeGroupF w = .instr (.ldB (fieldX w)) := by
  simp [decodeGroupF, h]

end Sys2Proof

namespace Sys2Proof.Machine

theorem exec_ldB (x : Nibble) (s : State) :
    exec (.ldB x) s = .next (advance (storeBytes s (effectiveAddress s 0) (bcdDigits (getV s x)))) := rfl

/-! ### The three digits: each is below 256, so its byte holds it whole (R161) -/

theorem toNat_bcdDigits_hundreds (b : Byte) : (bcdDigits b)[0].toNat = b.toNat / 100 :=
  (BitVec.toNat_ofNat ..).trans (Nat.mod_eq_of_lt (by omega))

theorem toNat_bcdDigits_tens (b : Byte) : (bcdDigits b)[1].toNat = b.toNat / 10 % 10 :=
  (BitVec.toNat_ofNat ..).trans (Nat.mod_eq_of_lt (by omega))

theorem toNat_bcdDigits_ones (b : Byte) : (bcdDigits b)[2].toNat = b.toNat % 10 :=
  (BitVec.toNat_ofNat ..).trans (Nat.mod_eq_of_lt (by omega))

/-! ### A store from I on that completes (R160) -/

/-- The bytes stand at I, I + 1, and so on modulo 4096, every other byte is kept, PC moves on, and nothing else changes. -/
theorem advance_storeBytes_spec {s t : State} {bs : List Byte} (hl : bs.length ≤ memSize)
    (ht : t = advance (storeBytes s (effectiveAddress s 0) bs)) :
    t = { s with mem := t.mem, pc := BitVec.ofNat 16 (s.pc.toNat + 2) } ∧
      (∀ (k : Nat) (hk : k < bs.length), readMem t (s.i.toNat + k) = bs[k]) ∧
      ∀ a, (∀ k, k < bs.length → a % 4096 ≠ (s.i.toNat + k) % 4096) → readMem t a = readMem s a := by
  subst ht
  refine ⟨advance_eq _, fun k hk => ?stored, fun a ha => ?kept⟩
  case stored => exact readMem_storeBytes s s.i.toNat bs k hk hl
  case kept => exact readMem_storeBytes_of_ne s s.i.toNat bs a fun k hk => (ha k hk).symm

/-! ### The statement -/

/-- Settles O34: a store of three bytes from I on, which are the digits of V[x]; I is only read. -/
theorem storeDecimalDigits : Obligations.StoreDecimalDigits := by
  refine fun x => ⟨?decodes, fun s => ?completes⟩
  case decodes => rw [decode_Fxkk, decodeGroupF_33 (fieldKK_xkk ..), fieldX_xkk]
  case completes =>
    obtain ⟨hframe, hstored, hkept⟩ :=
      advance_storeBytes_spec (s := s) (bs := bcdDigits (getV s x)) (by simp [memSize]) rfl
    refine ⟨_, exec_ldB x s, hframe, ?hundreds, ?tens, ?ones, hkept⟩
    case hundreds =>
      change (readMem _ (s.i.toNat + 0)).toNat = _
      rw [hstored 0 (by simp), toNat_bcdDigits_hundreds]
    case tens => rw [hstored 1 (by simp), toNat_bcdDigits_tens]
    case ones => rw [hstored 2 (by simp), toNat_bcdDigits_ones]

end Sys2Proof.Machine
end

section
/-! PROOFS. The decoder and the encoder (spec 30_encoding.md): what the decoder answers on each row of the match and mask table,
that every word it accepts is the word of what it answers, and the statements that the two writings of the opcode map agree. -/

namespace Sys2Proof

/-! ### The rest of the dispatch (R74 to R77) -/

theorem decode_topB {w : Word} (h : fieldTop w = 0xB) : decode w = .instr (.jpV0 (fieldNNN w)) := by simp [decode, h]
theorem decode_topC {w : Word} (h : fieldTop w = 0xC) : decode w = .instr (.rnd (fieldX w) (fieldKK w)) := by
  simp [decode, h]
theorem decode_topD {w : Word} (h : fieldTop w = 0xD) : decode w = .instr (.drw (fieldX w) (fieldY w) (fieldN w)) := by
  simp [decode, h]

theorem decodeGroup8_n5 {w : Word} (h : fieldN w = 0x5#4) : decodeGroup8 w = .instr (.subReg (fieldX w) (fieldY w)) := by
  simp [decodeGroup8, h]
theorem decodeGroup8_n6 {w : Word} (h : fieldN w = 0x6#4) : decodeGroup8 w = .instr (.shr (fieldX w) (fieldY w)) := by
  simp [decodeGroup8, h]
theorem decodeGroup8_n7 {w : Word} (h : fieldN w = 0x7#4) : decodeGroup8 w = .instr (.subnReg (fieldX w) (fieldY w)) := by
  simp [decodeGroup8, h]
theorem decodeGroup8_nE {w : Word} (h : fieldN w = 0xE#4) : decodeGroup8 w = .instr (.shl (fieldX w) (fieldY w)) := by
  simp [decodeGroup8, h]

theorem decodeGroupE_9E {w : Word} (h : fieldKK w = 0x9E#8) : decodeGroupE w = .instr (.skp (fieldX w)) := by
  simp [decodeGroupE, h]
theorem decodeGroupE_A1 {w : Word} (h : fieldKK w = 0xA1#8) : decodeGroupE w = .instr (.sknp (fieldX w)) := by
  simp [decodeGroupE, h]

theorem decodeGroupF_0A {w : Word} (h : fieldKK w = 0x0A#8) : decodeGroupF w = .instr (.ldVxK (fieldX w)) := by
  simp [decodeGroupF, h]
theorem decodeGroupF_18 {w : Word} (h : fieldKK w = 0x18#8) : decodeGroupF w = .instr (.ldSTVx (fieldX w)) := by
  simp [decodeGroupF, h]
theorem decodeGroupF_1E {w : Word} (h : fieldKK w = 0x1E#8) : decodeGroupF w = .instr (.addI (fieldX w)) := by
  simp [decodeGroupF, h]
theorem decodeGroupF_55 {w : Word} (h : fieldKK w = 0x55#8) : decodeGroupF w = .instr (.storeRegs (fieldX w)) := by
  simp [decodeGroupF, h]
theorem decodeGroupF_65 {w : Word} (h : fieldKK w = 0x65#8) : decodeGroupF w = .instr (.loadRegs (fieldX w)) := by
  simp [decodeGroupF, h]

/-! ### From an instruction to its word and back -/

/-- The fields of an encoding are its operands, and its fixed nibbles lead the dispatch back to its form. -/
theorem decode_encode (i : Instr) : decode (encode i) = .instr i := by
  cases i
  case cls | ret => decide
  case jp | call | ldI | jpV0 => simp [encode, decode]
  case seByte | sneByte | ldByte | addByte | rnd => simp [encode, decode]
  case drw => simp [encode, decode]
  case seReg | sneReg => simp [encode, decode, decodeN0]
  case ldReg | orReg | andReg | xorReg | addReg | subReg | shr | subnReg | shl => simp [encode, decode, decodeGroup8]
  case skp | sknp => simp [encode, decode, decodeGroupE]
  case ldVxDT | ldVxK | ldDTVx | ldSTVx | addI | ldF | ldB | storeRegs | loadRegs => simp [encode, decode, decodeGroupF]

/-! ### From a word to its instruction and back: a word is put together from its fields -/

theorem nnn_of_fields {w : Word} {t : Nibble} (ht : fieldTop w = t) : t ++ fieldNNN w = w := ht ▸ word_eq_nnn w

theorem xkk_of_fields {w : Word} {t : Nibble} {k : Byte} (ht : fieldTop w = t) (hk : fieldKK w = k) :
    t ++ fieldX w ++ k = w := ht ▸ hk ▸ word_eq_xkk w

theorem xyn_of_fields {w : Word} {t n : Nibble} (ht : fieldTop w = t) (hn : fieldN w = n) :
    t ++ fieldX w ++ fieldY w ++ n = w := ht ▸ hn ▸ word_eq_xyn w

theorem encode_of_decodeGroup0 {w : Word} {i : Instr} (h : decodeGroup0 w = .instr i) : encode i = w := by
  rcases decodeGroup0_cases w with ⟨hw, hd⟩ | ⟨hw, hd⟩ | ⟨-, -, hd⟩ <;> rw [hd] at h <;> cases h <;> exact hw.symm

/-- The form whose bottom nibble must be 0 is answered only when it is. -/
theorem decodeN0_eq_instr {w : Word} {i j : Instr} (h : decodeN0 w j = .instr i) : j = i ∧ fieldN w = 0x0#4 := by
  rcases decodeN0_cases w j with ⟨hn, hd⟩ | ⟨-, hd⟩ <;> rw [hd] at h <;> cases h
  exact ⟨rfl, hn⟩

theorem encode_of_decodeGroup8 {w : Word} {i : Instr} (ht : fieldTop w = 0x8#4) (h : decodeGroup8 w = .instr i) :
    encode i = w := by
  unfold decodeGroup8 at h
  split at h <;> cases h
  all_goals exact xyn_of_fields ht (BitVec.eq_of_toNat_eq ‹_›)

theorem encode_of_decodeGroupE {w : Word} {i : Instr} (ht : fieldTop w = 0xE#4) (h : decodeGroupE w = .instr i) :
    encode i = w := by
  unfold decodeGroupE at h
  split_ifs at h <;> cases h
  all_goals exact xkk_of_fields ht ‹_›

theorem encode_of_decodeGroupF {w : Word} {i : Instr} (ht : fieldTop w = 0xF#4) (h : decodeGroupF w = .instr i) :
    encode i = w := by
  unfold decodeGroupF at h
  split_ifs at h <;> cases h
  all_goals exact xkk_of_fields ht ‹_›

/-- The top nibble selects the form or the group, and the rest of the word is its operands. -/
theorem encode_of_decode {w : Word} {i : Instr} (h : decode w = .instr i) : encode i = w := by
  rcases nibble_cases (fieldTop w) with ht | ht | ht | ht | ht | ht | ht | ht | ht | ht | ht | ht | ht | ht | ht | ht
  · rw [decode_top0 ht] at h; exact encode_of_decodeGroup0 h
  · rw [decode_top1 ht] at h; cases h; exact nnn_of_fields ht
  · rw [decode_top2 ht] at h; cases h; exact nnn_of_fields ht
  · rw [decode_top3 ht] at h; cases h; exact xkk_of_fields ht rfl
  · rw [decode_top4 ht] at h; cases h; exact xkk_of_fields ht rfl
  · rw [decode_top5 ht] at h
    obtain ⟨rfl, hn⟩ := decodeN0_eq_instr h
    exact xyn_of_fields ht hn
  · rw [decode_top6 ht] at h; cases h; exact xkk_of_fields ht rfl
  · rw [decode_top7 ht] at h; cases h; exact xkk_of_fields ht rfl
  · rw [decode_top8 ht] at h; exact encode_of_decodeGroup8 ht h
  · rw [decode_top9 ht] at h
    obtain ⟨rfl, hn⟩ := decodeN0_eq_instr h
    exact xyn_of_fields ht hn
  · rw [decode_topA ht] at h; cases h; exact nnn_of_fields ht
  · rw [decode_topB ht] at h; cases h; exact nnn_of_fields ht
  · rw [decode_topC ht] at h; cases h; exact xkk_of_fields ht rfl
  · rw [decode_topD ht] at h; cases h; exact xyn_of_fields ht rfl
  · rw [decode_topE ht] at h; exact encode_of_decodeGroupE ht h
  · rw [decode_topF ht] at h; exact encode_of_decodeGroupF ht h

/-! ### The rows of the table (R78) -/

/-- An instruction's word matches the row of the instruction. -/
theorem encode_matches_row : ∀ i : Instr, Laws.InTableRow.Statement i
  | .cls => Laws.InTableRow.cls
  | .ret => Laws.InTableRow.ret
  | .jp nnn => Laws.InTableRow.jp nnn
  | .call nnn => Laws.InTableRow.call nnn
  | .seByte x kk => Laws.InTableRow.seByte x kk
  | .sneByte x kk => Laws.InTableRow.sneByte x kk
  | .seReg x y => Laws.InTableRow.seReg x y
  | .ldByte x kk => Laws.InTableRow.ldByte x kk
  | .addByte x kk => Laws.InTableRow.addByte x kk
  | .ldReg x y => Laws.InTableRow.ldReg x y
  | .orReg x y => Laws.InTableRow.orReg x y
  | .andReg x y => Laws.InTableRow.andReg x y
  | .xorReg x y => Laws.InTableRow.xorReg x y
  | .addReg x y => Laws.InTableRow.addReg x y
  | .subReg x y => Laws.InTableRow.subReg x y
  | .shr x y => Laws.InTableRow.shr x y
  | .subnReg x y => Laws.InTableRow.subnReg x y
  | .shl x y => Laws.InTableRow.shl x y
  | .sneReg x y => Laws.InTableRow.sneReg x y
  | .ldI nnn => Laws.InTableRow.ldI nnn
  | .jpV0 nnn => Laws.InTableRow.jpV0 nnn
  | .rnd x kk => Laws.InTableRow.rnd x kk
  | .drw x y n => Laws.InTableRow.drw x y n
  | .skp x => Laws.InTableRow.skp x
  | .sknp x => Laws.InTableRow.sknp x
  | .ldVxDT x => Laws.InTableRow.ldVxDT x
  | .ldVxK x => Laws.InTableRow.ldVxK x
  | .ldDTVx x => Laws.InTableRow.ldDTVx x
  | .ldSTVx x => Laws.InTableRow.ldSTVx x
  | .addI x => Laws.InTableRow.addI x
  | .ldF x => Laws.InTableRow.ldF x
  | .ldB x => Laws.InTableRow.ldB x
  | .storeRegs x => Laws.InTableRow.storeRegs x
  | .loadRegs x => Laws.InTableRow.loadRegs x

/-- What a match on the whole word says. -/
theorem eq_of_mask_FFFF {w v : Word} (h : w &&& 0xFFFF#16 = v) : w = v := (BitVec.and_allOnes (x := w)).symm.trans h

/-- A match on the first and last nibble leads the dispatch into group 8 with that last nibble. -/
theorem decode_of_match8 {w v : Word} {i : Instr} (h : w &&& 0xF00F#16 = v) (hv : fieldTop v = 0x8#4)
    (hi : fieldN w = fieldN v → decodeGroup8 w = .instr i) : decode w = .instr i := by
  obtain ⟨ht, hn⟩ := fields_of_mask_F00F h
  rw [decode_top8 (ht.trans hv), hi hn]

/-- A match on the first nibble and last byte leads the dispatch into group F with that byte. -/
theorem decode_of_matchF {w v : Word} {i : Instr} (h : w &&& 0xF0FF#16 = v) (hv : fieldTop v = 0xF#4)
    (hi : fieldKK w = fieldKK v → decodeGroupF w = .instr i) : decode w = .instr i := by
  obtain ⟨ht, hk⟩ := fields_of_mask_F0FF h
  rw [decode_topF (ht.trans hv), hi hk]

/-- A word that matches row k decodes to an instruction of row k. -/
theorem decode_of_match {w : Word} {k : Nat} {m : Word × Word} (hk : opcodeRow k = some m) (hw : w &&& m.2 = m.1) :
    ∃ i, decode w = .instr i ∧ i.row = k := by
  unfold opcodeRow at hk
  split at hk <;> cases hk
  case h_1 => obtain rfl := eq_of_mask_FFFF hw; exact ⟨.cls, by decide, rfl⟩
  case h_2 => obtain rfl := eq_of_mask_FFFF hw; exact ⟨.ret, by decide, rfl⟩
  case h_3 => exact ⟨_, decode_top1 (fields_of_mask_F000 hw), rfl⟩
  case h_4 => exact ⟨_, decode_top2 (fields_of_mask_F000 hw), rfl⟩
  case h_5 => exact ⟨_, decode_top3 (fields_of_mask_F000 hw), rfl⟩
  case h_6 => exact ⟨_, decode_top4 (fields_of_mask_F000 hw), rfl⟩
  case h_7 =>
    obtain ⟨ht, hn⟩ := fields_of_mask_F00F hw
    exact ⟨_, (decode_top5 ht).trans (if_pos hn), rfl⟩
  case h_8 => exact ⟨_, decode_top6 (fields_of_mask_F000 hw), rfl⟩
  case h_9 => exact ⟨_, decode_top7 (fields_of_mask_F000 hw), rfl⟩
  case h_10 => exact ⟨_, decode_of_match8 hw rfl decodeGroup8_n0, rfl⟩
  case h_11 => exact ⟨_, decode_of_match8 hw rfl decodeGroup8_n1, rfl⟩
  case h_12 => exact ⟨_, decode_of_match8 hw rfl decodeGroup8_n2, rfl⟩
  case h_13 => exact ⟨_, decode_of_match8 hw rfl decodeGroup8_n3, rfl⟩
  case h_14 => exact ⟨_, decode_of_match8 hw rfl decodeGroup8_n4, rfl⟩
  case h_15 => exact ⟨_, decode_of_match8 hw rfl decodeGroup8_n5, rfl⟩
  case h_16 => exact ⟨_, decode_of_match8 hw rfl decodeGroup8_n6, rfl⟩
  case h_17 => exact ⟨_, decode_of_match8 hw rfl decodeGroup8_n7, rfl⟩
  case h_18 => exact ⟨_, decode_of_match8 hw rfl decodeGroup8_nE, rfl⟩
  case h_19 =>
    obtain ⟨ht, hn⟩ := fields_of_mask_F00F hw
    exact ⟨_, (decode_top9 ht).trans (if_pos hn), rfl⟩
  case h_20 => exact ⟨_, decode_topA (fields_of_mask_F000 hw), rfl⟩
  case h_21 => exact ⟨_, decode_topB (fields_of_mask_F000 hw), rfl⟩
  case h_22 => exact ⟨_, decode_topC (fields_of_mask_F000 hw), rfl⟩
  case h_23 => exact ⟨_, decode_topD (fields_of_mask_F000 hw), rfl⟩
  case h_24 =>
    obtain ⟨ht, hkk⟩ := fields_of_mask_F0FF hw
    exact ⟨_, (decode_topE ht).trans (decodeGroupE_9E hkk), rfl⟩
  case h_25 =>
    obtain ⟨ht, hkk⟩ := fields_of_mask_F0FF hw
    exact ⟨_, (decode_topE ht).trans (decodeGroupE_A1 hkk), rfl⟩
  case h_26 => exact ⟨_, decode_of_matchF hw rfl decodeGroupF_07, rfl⟩
  case h_27 => exact ⟨_, decode_of_matchF hw rfl decodeGroupF_0A, rfl⟩
  case h_28 => exact ⟨_, decode_of_matchF hw rfl decodeGroupF_15, rfl⟩
  case h_29 => exact ⟨_, decode_of_matchF hw rfl decodeGroupF_18, rfl⟩
  case h_30 => exact ⟨_, decode_of_matchF hw rfl decodeGroupF_1E, rfl⟩
  case h_31 => exact ⟨_, decode_of_matchF hw rfl decodeGroupF_29, rfl⟩
  case h_32 => exact ⟨_, decode_of_matchF hw rfl decodeGroupF_33, rfl⟩
  case h_33 => exact ⟨_, decode_of_matchF hw rfl decodeGroupF_55, rfl⟩
  case h_34 => exact ⟨_, decode_of_matchF hw rfl decodeGroupF_65, rfl⟩

/-- A word that matches no row is illegal, and names itself (R81). -/
theorem decode_of_no_match {w : Word} (h : ∀ k m, opcodeRow k = some m → w &&& m.2 ≠ m.1) :
    decode w = .illegalOpcode w := by
  refine (Machine.decode_cases w).resolve_left fun ⟨i, hi⟩ => ?_
  obtain ⟨m, hm, hmatch⟩ := encode_matches_row i
  rw [encode_of_decode hi] at hmatch
  exact h _ m hm hmatch

/-! ### The statements -/

/-- Settles O38: the fields of the word are the operands. -/
theorem decodeAfterEncode : Obligations.DecodeAfterEncode := decode_encode

/-- Settles O39: the word is put together again from the fields the decoder read. -/
theorem encodeAfterDecode : Obligations.EncodeAfterDecode := fun _ _ => encode_of_decode

/-- Settles O40: an accepted word is an encoding, which matches its row; a match on a row fixes what the dispatch looks at. -/
theorem decodeAgreesWithTable : Obligations.DecodeAgreesWithTable := by
  refine fun w => ⟨fun k => ⟨?row, ?accepted⟩, fun h k m hk hw => ?legal, decode_of_no_match⟩
  case row =>
    rintro ⟨i, hi, rfl⟩
    exact encode_of_decode hi ▸ encode_matches_row i
  case accepted => exact fun ⟨m, hk, hw⟩ => decode_of_match hk hw
  case legal =>
    obtain ⟨i, hi, -⟩ := decode_of_match hk hw
    cases hi.symm.trans h

/-- Settles O41: ten closed words, evaluated. -/
theorem sampleWordsDecodeRight : Obligations.SampleWordsDecodeRight := by
  unfold Obligations.SampleWordsDecodeRight
  decide

end Sys2Proof
end

section
/-! PROOFS. Control transfer (spec 41_control_transfer.md): `JP V0`, and a `CALL` followed by its `RET`. -/

namespace Sys2Proof.Machine

theorem exec_jpV0 (nnn : Addr) (s : State) : exec (.jpV0 nnn) s = .next (jumpTo s (offsetTarget s nnn)) := rfl

/-- The target of `JP V0` as a number (R104). -/
theorem offsetTarget_eq (s : State) (nnn : Addr) :
    offsetTarget s nnn = BitVec.ofNat 16 (nnn.toNat + (getV s 0#4).toNat) := by
  simp [offsetTarget, BitVec.ofNat_add]

/-- A sequence goes on from the state its first instruction answers. -/
theorem execAll_cons {i : Instr} {s t : State} (h : exec i s = .next t) (is : List Instr) :
    execAll (i :: is) s = execAll is t := by rw [execAll, h]

theorem execAll_single {i : Instr} {s t : State} (h : exec i s = .next t) : execAll [i] s = .next t :=
  execAll_cons h []

/-- `CALL` then `RET`: the value popped is the one that was pushed, and SP counts up and down again. -/
theorem execAll_call_ret {s : State} (nnn : Addr) (h : s.sp < s.params.stackDepth) (hs : s.sp < s.stack.length) :
    execAll [.call nnn, .ret] s =
      .next { s with stack := s.stack.set s.sp (nextPc s), pc := BitVec.ofNat 16 (s.pc.toNat + 2) } := by
  rw [execAll_cons (exec_call_of_slot nnn h hs), execAll_single (exec_ret_of_slot (a := nextPc s) ?notEmpty ?top), nextPc_eq]
  case notEmpty => exact Nat.succ_ne_zero s.sp
  case top => exact List.getElem?_set_self hs
  rfl

/-! ### The statements -/

/-- Settles O9: a push writes one slot, which the pop leaves as it is. -/
theorem callThenReturnRestores : Obligations.CallThenReturnRestores :=
  fun _ nnn h hs => ⟨_, execAll_call_ret nnn h hs, rfl, List.length_set, fun _ hk => List.getElem?_set_ne (Ne.symm hk)⟩

/-- Settles O4: the sum of a 12-bit and an 8-bit number stays below 2^16. -/
theorem jumpOffsetAddsV0 : Obligations.JumpOffsetAddsV0 := by
  refine fun s nnn => ⟨?jumps, ?bound⟩
  case jumps => rw [exec_jpV0, offsetTarget_eq]; rfl
  case bound => have := nnn.isLt; have := (getV s 0#4).isLt; omega

end Sys2Proof.Machine
end

section
/-! PROOFS. Arithmetic and logic (spec 42_alu.md): the differences and the shifts. -/

namespace Sys2Proof.Machine

theorem exec_subReg (x y : Nibble) (s : State) :
    exec (.subReg x y) s = .next (advance (writeResult s x (subFlag (getV s x) (getV s y)))) := rfl

theorem exec_subnReg (x y : Nibble) (s : State) :
    exec (.subnReg x y) s = .next (advance (writeResult s x (subFlag (getV s y) (getV s x)))) := rfl

theorem exec_shr (x y : Nibble) (s : State) :
    exec (.shr x y) s = .next (advance (writeResult s x (shrFlag (shiftSource s x y)))) := rfl

theorem exec_shl (x y : Nibble) (s : State) :
    exec (.shl x y) s = .next (advance (writeResult s x (shlFlag (shiftSource s x y)))) := rfl

/-- The flag of a difference as VF's byte: 1 when there is no borrow (R118, R120; D10). -/
theorem flagByte_subFlag (a b : Byte) : flagByte (subFlag a b).2 = if b.toNat ≤ a.toNat then 1 else 0 := by
  simp only [flagByte_eq, subFlag, decide_eq_true_eq, ge_iff_le]

/-- A difference that completes: both operands are read before any write (R118, R120). -/
theorem advance_sub_spec {s t : State} {x : Nibble} {a b : Byte} (ht : t = advance (writeResult s x (subFlag a b))) :
    t = { s with v := t.v, pc := BitVec.ofNat 16 (s.pc.toNat + 2) } ∧
      (x ≠ 15#4 → (getV t x).toNat = (a.toNat + 256 - b.toNat) % 256) ∧
      getV t 15#4 = (if b.toNat ≤ a.toNat then 1 else 0) ∧
      ∀ r, r ≠ x → r ≠ 15#4 → getV t r = getV s r := by
  obtain ⟨hframe, hdest, hflag, hothers⟩ := advance_writeResult_spec ht
  refine ⟨hframe, fun hx => ?difference, ?noBorrow, hothers⟩
  case difference => rw [hdest hx, toNat_subFlag]
  case noBorrow => rw [hflag, flagByte_subFlag]

/-- A result and flag given as numbers, written and completed. -/
theorem advance_writeResult_toNat {s t : State} {x : Nibble} {r : Byte × Bool} {result flag : Nat}
    (hr : r.1.toNat = result ∧ r.2.toNat = flag) (ht : t = advance (writeResult s x r)) :
    t = { s with v := t.v, pc := BitVec.ofNat 16 (s.pc.toNat + 2) } ∧
      (x ≠ 15#4 → (getV t x).toNat = result) ∧ (getV t 15#4).toNat = flag ∧
      ∀ q, q ≠ x → q ≠ 15#4 → getV t q = getV s q := by
  obtain ⟨hframe, hdest, hflag, hothers⟩ := advance_writeResult_spec ht
  refine ⟨hframe, fun hx => ?result, ?flag, hothers⟩
  case result => rw [hdest hx, hr.1]
  case flag => rw [hflag, toNat_flagByte, hr.2]

/-! ### The statements -/

/-- Settles O17: the difference V[x] - V[y]. -/
theorem subWithNoBorrowFlag : Obligations.SubWithNoBorrowFlag :=
  fun x y s => ⟨_, exec_subReg x y s, advance_sub_spec rfl⟩

/-- Settles O18: the difference V[y] - V[x]. -/
theorem subnWithNoBorrowFlag : Obligations.SubnWithNoBorrowFlag :=
  fun x y s => ⟨_, exec_subnReg x y s, advance_sub_spec rfl⟩

/-- Settles O19: `shiftSource` is the choice the toggle makes. -/
theorem shiftRightByToggle : Obligations.ShiftRightByToggle := by
  rintro x y s src rfl
  exact ⟨_, exec_shr x y s, advance_writeResult_toNat (toNat_shrFlag (shiftSource s x y)) rfl⟩

/-- Settles O20: `shiftSource` is the choice the toggle makes. -/
theorem shiftLeftByToggle : Obligations.ShiftLeftByToggle := by
  rintro x y s src rfl
  exact ⟨_, exec_shl x y s, advance_writeResult_toNat (toNat_shlFlag (shiftSource s x y)) rfl⟩

end Sys2Proof.Machine
end

section
/-! PROOFS. The random byte and the sum with I (spec 43_index_random.md). -/

namespace Sys2Proof.Machine

theorem exec_rnd (x : Nibble) (kk : Byte) (s : State) :
    exec (.rnd x kk) s = .next (advance (countDraw (setV s x (freshByte s &&& kk)))) := rfl

/-- `ADD I, Vx`, with the toggle deciding about the register file alone (R132). -/
theorem exec_addI (x : Nibble) (s : State) :
    exec (.addI x) s = .next { s with
      v := if s.params.addISetsVF = true then (setVF s (indexCarry s.i (getV s x))).v else s.v
      i := BitVec.ofNat 12 (s.i.toNat + (getV s x).toNat)
      pc := BitVec.ofNat 16 (s.pc.toNat + 2) } := by
  simp only [exec, execAddI, advance_eq]
  split <;> rfl

/-- The carry out of 12 bits as VF's byte (R132, D15). -/
theorem flagByte_indexCarry (i : Addr) (b : Byte) :
    flagByte (indexCarry i b) = if i.toNat + b.toNat > 0xFFF then 1 else 0 := by
  simp only [flagByte_eq, indexCarry, decide_eq_true_eq]

/-- A byte under a mask is at most the mask. -/
theorem toNat_and_le_right (a b : Byte) : (a &&& b).toNat ≤ b.toNat := by
  rw [BitVec.toNat_and]; exact Nat.and_le_right

/-! ### The statements -/

/-- Settles O21: a register write of the masked byte, at the counter's old value. -/
theorem randomByteIsMasked : Obligations.RandomByteIsMasked := by
  refine fun x kk s => ⟨_, exec_rnd x kk s, advance_eq _, ?dest, fun k hk => ?bits, ?bound, fun r hr => ?others⟩
  case dest => exact getV_setV_same s x _
  case bits => rw [getV_advance, getV_countDraw, getV_setV_same, BitVec.getLsbD_and, hk, Bool.and_false]
  case bound => rw [getV_advance, getV_countDraw, getV_setV_same]; exact toNat_and_le_right _ _
  case others => exact getV_setV_ne s x r _ hr

/-- Settles O23: with the toggle the register file is that of a flag write, without it the old one. -/
theorem addIndexByToggle : Obligations.AddIndexByToggle := by
  refine fun x s => ⟨_, exec_addI x s, rfl, fun h => ?carry, fun h => ?kept, fun r hr => ?others⟩
  case carry =>
    rw [getV_congr (if_pos h), setVF, regVF, getV_setV_same, flagByte_indexCarry]
  case kept => exact if_neg (by rw [h]; exact Bool.false_ne_true)
  case others =>
    by_cases h : s.params.addISetsVF = true
    · rw [getV_congr (if_pos h)]; exact getV_setV_ne s regVF r _ hr
    · exact getV_congr (if_neg h) r

end Sys2Proof.Machine
end

section
/-! PROOFS. Drawing (spec 44_display.md): what a completed `DRW` leaves behind, and a draw followed by the same draw. -/

namespace Sys2Proof.Machine

/-- The pixels addressed are those in the list the draw goes through (R142, R143). -/
theorem addressed_iff_mem (s : State) (x y n : Nibble) (px : Nat × Nat) :
    Addressed s x y n px ↔ px ∈ drawTargets s x y n := (mem_drawTargets s x y n px).symm

theorem flagByte_eq_one_iff (f : Bool) : flagByte f = 1 ↔ f = true := by cases f <;> decide

/-- The pixels addressed depend on the coordinates' registers, I, memory and the parameters alone. -/
theorem drawTargets_congr {s t : State} {x y : Nibble} (n : Nibble) (hx : getV t x = getV s x) (hy : getV t y = getV s y)
    (hi : t.i = s.i) (hm : t.mem = s.mem) (hp : t.params = s.params) : drawTargets t x y n = drawTargets s x y n := by
  simp only [drawTargets, indexedBytes, effectiveAddress, readMem, hx, hy, hi, hm, hp]

/-- The collision law on a display of the configured size (R143). -/
theorem advance_drawPixels_spec {s t : State} {x y n : Nibble} (hp : s.params.WF) (hf : FrameBuffer.WF s.params s.fb)
    (ht : t = advance (drawPixels s (drawTargets s x y n))) :
    t = { s with v := t.v, fb := t.fb, drawFlag := s.drawFlag || !(drawTargets s x y n).isEmpty,
                 pc := BitVec.ofNat 16 (s.pc.toNat + 2) } ∧
      FrameBuffer.WF s.params t.fb ∧
      (∀ px, FrameBuffer.get t.fb px =
        if px ∈ drawTargets s x y n then !FrameBuffer.get s.fb px else FrameBuffer.get s.fb px) ∧
      getV t 15#4 = flagByte ((drawTargets s x y n).any (FrameBuffer.get s.fb)) ∧
      ∀ r, r ≠ 15#4 → getV t r = getV s r := by
  subst ht
  obtain ⟨-, hpixels, hflag, hothers⟩ :=
    drawPixels_spec s (drawTargets s x y n) (nodup_drawTargets s x y n hp) (has_drawTargets s x y n hp hf)
  exact ⟨advance_eq _, FrameBuffer.WF_blit s.params _ s.fb false hf, hpixels, hflag, hothers⟩

/-- On a display of the configured size `DRW` completes. -/
theorem exec_drw {s : State} (x y n : Nibble) (hp : s.params.WF) (hf : FrameBuffer.WF s.params s.fb) :
    exec (.drw x y n) s = .next (advance (drawPixels s (drawTargets s x y n))) := execDrw_eq s x y n hp hf

/-! ### The statements -/

/-- Settles O26: no pixel is addressed twice, so each addressed one is inverted once and compared with its old value. -/
theorem drawObeysCollisionLaw : Obligations.DrawObeysCollisionLaw := by
  intro s x y n hp hf
  obtain ⟨hframe, hwf, hpixels, hflag, hothers⟩ := advance_drawPixels_spec (x := x) (y := y) (n := n) hp hf rfl
  refine ⟨_, exec_drw x y n hp hf, advance_eq _, hwf, fun px h => ?inverted, fun px h => ?kept, fun h => ?collision,
    fun h => ?noCollision, ?drawn, hothers⟩
  case inverted => rw [hpixels, if_pos ((addressed_iff_mem ..).1 h)]
  case kept => rw [hpixels, if_neg (mt (addressed_iff_mem ..).2 h)]
  case collision =>
    obtain ⟨px, ha, hon⟩ := h
    rw [hflag, flagByte_eq_one_iff, List.any_eq_true]
    exact ⟨px, (addressed_iff_mem ..).1 ha, hon⟩
  case noCollision =>
    rw [hflag, flagByte_eq, if_neg]
    rw [List.any_eq_true]
    exact fun ⟨px, hm, hon⟩ => h ⟨px, (addressed_iff_mem ..).2 hm, hon⟩
  case drawn =>
    simp only [addressed_iff_mem, ← List.isEmpty_eq_false_iff_exists_mem]
    rw [hframe]
    simp

/-- Settles O27: the second draw addresses the same pixels, and inverts each of them back. -/
theorem drawTwiceRestoresDisplay : Obligations.DrawTwiceRestoresDisplay := by
  intro s x y n hp hf hx hy
  generalize ht : advance (drawPixels s (drawTargets s x y n)) = t
  obtain ⟨hframe, hwf, hpixels, -, hothers⟩ := advance_drawPixels_spec hp hf ht.symm
  have hparams : t.params = s.params := by rw [hframe]
  have hsame : drawTargets t x y n = drawTargets s x y n :=
    drawTargets_congr n (hothers x hx) (hothers y hy) (by rw [hframe]) (by rw [hframe]) hparams
  rw [← hparams] at hp hwf
  obtain ⟨-, hwf', hpixels', hflag', -⟩ := advance_drawPixels_spec (x := x) (y := y) (n := n) hp hwf rfl
  refine ⟨_, (execAll_cons (ht ▸ exec_drw x y n (hparams ▸ hp) hf) _).trans (execAll_single (exec_drw x y n hp hwf)),
    ?restored, ?collision⟩
  case restored =>
    refine FrameBuffer.ext_get s.params _ _ (hparams ▸ hwf') hf fun px => ?_
    rw [hpixels', hsame, hpixels]
    split <;> simp
  case collision =>
    rw [hflag', flagByte_eq_one_iff, hsame, List.any_eq_true]
    refine exists_congr fun px => ?_
    rw [addressed_iff_mem, and_congr_right_iff]
    intro hm
    rw [hpixels, if_pos hm, Bool.not_eq_true']

end Sys2Proof.Machine
end

section
/-! PROOFS. The keypad and the sound timer (spec 45_keypad_timers.md), and the step that serves a key-wait
(40_step_cycle.md R92). -/

namespace Sys2Proof.Machine

theorem exec_skp (x : Nibble) (s : State) : exec (.skp x) s = .next (skipIf s (keyDown s (lowNibble s x))) := rfl

theorem exec_sknp (x : Nibble) (s : State) : exec (.sknp x) s = .next (skipIf s (!keyDown s (lowNibble s x))) := rfl

theorem exec_ldVxK (x : Nibble) (s : State) : exec (.ldVxK x) s = .next (advance (beginWait s x)) := rfl

theorem exec_ldSTVx (x : Nibble) (s : State) : exec (.ldSTVx x) s = .next (advance { s with st := getV s x }) := rfl

/-- The key a skip looks at, in terms of the whole register (R150, D16). -/
theorem keyDown_lowNibble (s : State) (x : Nibble) :
    keyDown s (lowNibble s x) = s.keys.getLsbD ((getV s x).toNat % 16) := by rw [keyDown, toNat_lowNibble]

/-- Sound is on exactly while the timer is not 0 (60_exceptions.md R189). -/
theorem soundOn_iff (s : State) : soundOn s = true ↔ s.st ≠ 0 := by
  rw [soundOn, decide_eq_true_eq, gt_iff_lt, Nat.pos_iff_ne_zero, ne_eq, ne_eq, ← BitVec.toNat_inj]; rfl

/-- An enabled `Step` that awaits a key is the key-wait check (40_step_cycle.md R91). -/
theorem coreStep_of_waiting {s : State} (he : Enabled s) (hw : s.wait.valid = true) :
    coreStep s = .next (keyWaitCheck s) := (coreStep_of_enabled he).trans (if_pos hw)

/-- With a `Step` next and a key awaited, the step is the key-wait check, its request taken off (log entry 3). -/
theorem step_of_waiting {s : State} (hn : StepIsNext s) (he : Enabled s) (hw : s.wait.valid = true) :
    step s = .next (keyWaitCheck { s with schedule := s.schedule.tail }) :=
  (step_of_stepIsNext hn).trans (coreStep_of_waiting he hw)

/-- With no key down the check changes nothing (R92). -/
theorem keyWaitCheck_of_none {s : State} (h : leastKey s.keys = none) : keyWaitCheck s = s := by rw [keyWaitCheck, h]

/-- With keys down the least one resolves the wait (R92, D18). -/
theorem keyWaitCheck_of_some {s : State} {k : Nat} (h : leastKey s.keys = some k) :
    keyWaitCheck s = endWait (setV s s.wait.reg (BitVec.ofNat 8 k)) := by rw [keyWaitCheck, h]

/-! ### The statements -/

/-- Settles O28: a skip on the key's bit. -/
theorem skipIfKeyPressed : Obligations.SkipIfKeyPressed := by
  refine fun x s => ⟨fun h => ?skips, fun h => ?fallsThrough⟩
  case skips => rw [exec_skp, keyDown_lowNibble, h, skipIf_eq, if_pos rfl]
  case fallsThrough => rw [exec_skp, keyDown_lowNibble, h, skipIf_eq, if_neg Bool.false_ne_true]

/-- Settles O29: a skip on the key's bit, negated. -/
theorem skipIfKeyNotPressed : Obligations.SkipIfKeyNotPressed := by
  refine fun x s => ⟨fun h => ?skips, fun h => ?fallsThrough⟩
  case skips => rw [exec_sknp, keyDown_lowNibble, h, skipIf_eq]; rfl
  case fallsThrough => rw [exec_sknp, keyDown_lowNibble, h, skipIf_eq]; rfl

/-- Settles O32: ST is written, and SOUND_ON reads it. -/
theorem writeSoundTimer : Obligations.WriteSoundTimer :=
  fun x s => ⟨_, exec_ldSTVx x s, advance_eq _, soundOn_iff _⟩

/-- Settles O33: the key search decides which outcome the check has. -/
theorem keyWaitStartsAndResolves : Obligations.KeyWaitStartsAndResolves := by
  refine ⟨fun x s => ?begins, fun s hn he hw => ⟨fun h => ?waits, fun k hk hdown hleast => ?resolves⟩⟩
  case begins => rw [exec_ldVxK, advance_eq]; rfl
  case waits =>
    have hkey : leastKey s.keys = none := (leastKey_eq_none _).2 h
    exact (step_of_waiting hn he hw).trans (congrArg _ (keyWaitCheck_of_none hkey))
  case resolves =>
    have hkey : leastKey s.keys = some k := (leastKey_eq_some _ k).2 ⟨hk, hdown, hleast⟩
    refine ⟨_, (step_of_waiting hn he hw).trans (congrArg _ (keyWaitCheck_of_some hkey)), rfl, ?key, fun r hr => ?others⟩
    case key => rw [getV_endWait, getV_setV_same, BitVec.toNat_ofNat, Nat.mod_eq_of_lt (by omega)]
    case others => exact getV_setV_ne _ _ r _ hr

end Sys2Proof.Machine
end

section
/-! PROOFS. Register store and load (spec 46_memory_transfer.md R162, R163), and a byte stored and read back
(20_memory.md section 6). -/

namespace Sys2Proof.Machine

/-- `LD [I], Vx`, with the toggle deciding about I alone (R162). -/
theorem exec_storeRegs (x : Nibble) (s : State) :
    exec (.storeRegs x) s = .next { s with
      mem := Memory.writeList s.mem s.i.toNat (regsUpTo s x)
      i := if s.params.memIncrementsI = true then BitVec.ofNat 12 (s.i.toNat + x.toNat + 1) else s.i
      pc := BitVec.ofNat 16 (s.pc.toNat + 2) } := by
  simp only [exec, execStoreRegs, indexAfterTransfer_eq, advance_eq]; rfl

/-- `LD Vx, [I]`, with the toggle deciding about I alone (R163). -/
theorem exec_loadRegs (x : Nibble) (s : State) :
    exec (.loadRegs x) s = .next { s with
      v := setRegsFrom s.v 0 (indexedBytes s (x.toNat + 1))
      i := if s.params.memIncrementsI = true then BitVec.ofNat 12 (s.i.toNat + x.toNat + 1) else s.i
      pc := BitVec.ofNat 16 (s.pc.toNat + 2) } := by
  simp only [exec, execLoadRegs, indexAfterTransfer_eq, advance_eq]

/-! ### The statements -/

/-- Settles O35: V[0] to V[x] are a list of x + 1 bytes, stored from I on. -/
theorem storeRegistersInclusive : Obligations.StoreRegistersInclusive := by
  refine fun x s => ⟨_, exec_storeRegs x s, rfl, fun k hk => ?stored, fun a ha => ?kept, rfl⟩
  case stored =>
    have hlt : k.toNat < (regsUpTo s x).length := by rw [length_regsUpTo]; omega
    have hlen : (regsUpTo s x).length ≤ memSize := by have := x.isLt; rw [length_regsUpTo, memSize]; omega
    exact (readMem_storeBytes s s.i.toNat _ k.toNat hlt hlen).trans (getElem_regsUpTo s x k hlt)
  case kept =>
    refine readMem_storeBytes_of_ne s s.i.toNat (regsUpTo s x) a fun k hk => (ha k ?_).symm
    rw [length_regsUpTo] at hk
    exact Nat.le_of_lt_succ hk

/-- Settles O36: the bytes from I on go to the registers below x + 1. -/
theorem loadRegistersInclusive : Obligations.LoadRegistersInclusive := by
  refine fun x s => ⟨_, exec_loadRegs x s, rfl, fun k hk => ?loaded, fun k hk => ?kept, rfl⟩
  case loaded => exact (getV_loadedRegs s (x.toNat + 1) k).trans (if_pos (Nat.lt_succ_of_le hk))
  case kept => exact (getV_loadedRegs s (x.toNat + 1) k).trans (if_neg (Nat.not_lt.2 hk))

/-- Settles O37: the store puts V[0] at `a`, no instruction between writes memory, and the load takes it from `a`. -/
theorem memoryRoundTrip : Obligations.MemoryRoundTrip := by
  intro s a b
  obtain ⟨s₁, hstore, -, hstored, -, -⟩ := storeRegistersInclusive 0#4 (advance { s with i := a })
  obtain ⟨s₂, hload, -, hloaded, -, -⟩ := loadRegistersInclusive 0#4 (advance { advance (setV s₁ 0#4 b) with i := a })
  refine ⟨s₂, ?completes, ?value⟩
  case completes =>
    rw [execAll_cons (exec_ldI a s), execAll_cons hstore, execAll_cons (exec_ldByte 0#4 b s₁), execAll_cons (exec_ldI a _),
      execAll_single hload]
  case value => exact (hloaded 0#4 le_rfl).trans (hstored 0#4 le_rfl)

end Sys2Proof.Machine
end

section
/-! PROOFS. What every instruction leaves unchanged (spec 10_state.md section 8): for each instruction the fields it may write,
one lemma per field about all instructions, and the statements over all instructions that follow. -/

namespace Sys2Proof.Machine

/-! ### Inversions of the three instructions that may stop -/

/-- What a completed `RET` did (R101, R173). -/
theorem exec_ret_inv {s t : State} (h : exec .ret s = .next t) :
    (s.sp = 0 ∧ t = raiseFault .stackUnderflow 0x00EE#16 s) ∨
    (s.sp ≠ 0 ∧ ∃ a, s.stack[s.sp - 1]? = some a ∧ t = jumpTo { s with sp := s.sp - 1 } a) := by
  by_cases h0 : s.sp = 0
  · rw [exec_ret_of_empty h0] at h; cases h
    exact .inl ⟨h0, rfl⟩
  · rcases ha : s.stack[s.sp - 1]? with _ | a
    · simp [exec, execRet, h0, popReturn, ha] at h
    · rw [exec_ret_of_slot h0 ha] at h; cases h
      exact .inr ⟨h0, a, rfl, rfl⟩

/-- What a completed `CALL` did (R103, R172). -/
theorem exec_call_inv {s t : State} {nnn : Addr} (h : exec (.call nnn) s = .next t) :
    (¬ s.sp < s.params.stackDepth ∧ t = raiseFault .stackOverflow (0x2#4 ++ nnn) s) ∨
    (s.sp < s.params.stackDepth ∧ s.sp < s.stack.length ∧
      t = jumpTo { s with stack := s.stack.set s.sp (nextPc s), sp := s.sp + 1 } (targetOf nnn)) := by
  by_cases hd : s.sp < s.params.stackDepth
  · by_cases hs : s.sp < s.stack.length
    · rw [exec_call_of_slot nnn hd hs] at h; cases h
      exact .inr ⟨hd, hs, rfl⟩
    · simp [exec, execCall, hd, pushReturn, hs] at h
  · rw [exec_call_of_full nnn hd] at h; cases h
    exact .inl ⟨hd, rfl⟩

/-- What a completed `DRW` did (R142). -/
theorem exec_drw_inv {s t : State} {x y n : Nibble} (h : exec (.drw x y n) s = .next t) :
    (drawTargets s x y n).all (FrameBuffer.has s.fb) = true ∧ t = advance (drawPixels s (drawTargets s x y n)) := by
  simp only [exec, execDrw] at h
  split at h <;> cases h
  exact ⟨‹_›, rfl⟩

/-! ### The frame of each instruction -/

/-- `s` with the fields that the instruction may write (R44, the column of writers) as they are in `t`. -/
def frameOf : Instr → State → State → State
  | .cls, s, t => { s with fb := t.fb, drawFlag := t.drawFlag, pc := t.pc }
  | .drw _ _ _, s, t => { s with v := t.v, fb := t.fb, drawFlag := t.drawFlag, pc := t.pc }
  | .ret, s, t => { s with sp := t.sp, fault := t.fault, pc := t.pc }
  | .call _, s, t => { s with stack := t.stack, sp := t.sp, fault := t.fault, pc := t.pc }
  | .jp _, s, t | .jpV0 _, s, t | .seByte _ _, s, t | .sneByte _ _, s, t | .seReg _ _, s, t | .sneReg _ _, s, t
  | .skp _, s, t | .sknp _, s, t => { s with pc := t.pc }
  | .ldByte _ _, s, t | .addByte _ _, s, t | .ldReg _ _, s, t | .orReg _ _, s, t | .andReg _ _, s, t
  | .xorReg _ _, s, t | .addReg _ _, s, t | .subReg _ _, s, t | .shr _ _, s, t | .subnReg _ _, s, t | .shl _ _, s, t
  | .ldVxDT _, s, t => { s with v := t.v, pc := t.pc }
  | .rnd _ _, s, t => { s with v := t.v, rndCount := t.rndCount, pc := t.pc }
  | .ldI _, s, t | .ldF _, s, t => { s with i := t.i, pc := t.pc }
  | .addI _, s, t | .loadRegs _, s, t => { s with v := t.v, i := t.i, pc := t.pc }
  | .ldB _, s, t => { s with mem := t.mem, pc := t.pc }
  | .storeRegs _, s, t => { s with mem := t.mem, i := t.i, pc := t.pc }
  | .ldVxK _, s, t => { s with wait := t.wait, pc := t.pc }
  | .ldDTVx _, s, t => { s with dt := t.dt, pc := t.pc }
  | .ldSTVx _, s, t => { s with st := t.st, pc := t.pc }

section
variable {i : Instr} {s t : State} (h : exec i s = .next t)
include h

/-- An instruction that completes writes nothing outside its frame. -/
theorem exec_frame : t = frameOf i s t := by
  cases i
  case ret => rcases exec_ret_inv h with ⟨-, rfl⟩ | ⟨-, a, -, rfl⟩ <;> rfl
  case call => rcases exec_call_inv h with ⟨-, rfl⟩ | ⟨-, -, rfl⟩ <;> rfl
  case drw => obtain ⟨-, rfl⟩ := exec_drw_inv h; rfl
  case addI => rw [exec_addI] at h; cases h; rfl
  case storeRegs => rw [exec_storeRegs] at h; cases h; rfl
  case loadRegs => rw [exec_loadRegs] at h; cases h; rfl
  all_goals cases h; rfl

/-- What lies outside the frame is as it was. -/
theorem exec_keeps {α : Type} (field : State → α) (hfield : field (frameOf i s t) = field s) : field t = field s :=
  (congrArg field (exec_frame h)).trans hfield

/-! ### One field at a time -/

theorem exec_keys : t.keys = s.keys := exec_keeps h State.keys (by cases i <;> rfl)
theorem exec_run : t.run = s.run := exec_keeps h State.run (by cases i <;> rfl)
theorem exec_params : t.params = s.params := exec_keeps h State.params (by cases i <;> rfl)
theorem exec_schedule : t.schedule = s.schedule := exec_keeps h State.schedule (by cases i <;> rfl)

theorem exec_stack : t.stack = s.stack ∨ ∃ nnn, i = .call nnn := by
  cases i with
  | call nnn => exact .inr ⟨nnn, rfl⟩
  | _ => exact .inl (exec_keeps h State.stack rfl)

theorem exec_sp : t.sp = s.sp ∨ i = .ret ∨ ∃ nnn, i = .call nnn := by
  cases i with
  | ret => exact .inr (.inl rfl)
  | call nnn => exact .inr (.inr ⟨nnn, rfl⟩)
  | _ => exact .inl (exec_keeps h State.sp rfl)

theorem exec_fault : t.fault = s.fault ∨ i = .ret ∨ ∃ nnn, i = .call nnn := by
  cases i with
  | ret => exact .inr (.inl rfl)
  | call nnn => exact .inr (.inr ⟨nnn, rfl⟩)
  | _ => exact .inl (exec_keeps h State.fault rfl)

theorem exec_dt : t.dt = s.dt ∨ ∃ x, i = .ldDTVx x := by
  cases i with
  | ldDTVx x => exact .inr ⟨x, rfl⟩
  | _ => exact .inl (exec_keeps h State.dt rfl)

theorem exec_st : t.st = s.st ∨ ∃ x, i = .ldSTVx x := by
  cases i with
  | ldSTVx x => exact .inr ⟨x, rfl⟩
  | _ => exact .inl (exec_keeps h State.st rfl)

theorem exec_mem : t.mem = s.mem ∨ ∃ x, i = .ldB x ∨ i = .storeRegs x := by
  cases i with
  | ldB x => exact .inr ⟨x, .inl rfl⟩
  | storeRegs x => exact .inr ⟨x, .inr rfl⟩
  | _ => exact .inl (exec_keeps h State.mem rfl)

theorem exec_display : (t.fb = s.fb ∧ t.drawFlag = s.drawFlag) ∨ i = .cls ∨ ∃ x y n, i = .drw x y n := by
  cases i with
  | cls => exact .inr (.inl rfl)
  | drw x y n => exact .inr (.inr ⟨x, y, n, rfl⟩)
  | _ => exact .inl ⟨exec_keeps h State.fb rfl, exec_keeps h State.drawFlag rfl⟩

theorem exec_wait : t.wait = s.wait ∨ ∃ x, i = .ldVxK x := by
  cases i with
  | ldVxK x => exact .inr ⟨x, rfl⟩
  | _ => exact .inl (exec_keeps h State.wait rfl)

theorem exec_rndCount : t.rndCount = s.rndCount ∨ ∃ x kk, i = .rnd x kk := by
  cases i with
  | rnd x kk => exact .inr ⟨x, kk, rfl⟩
  | _ => exact .inl (exec_keeps h State.rndCount rfl)

/-- DRAW_FLAG is only ever set (R37, D21). -/
theorem exec_drawFlag (hd : s.drawFlag = true) : t.drawFlag = true := by
  cases i with
  | cls => cases h; rfl
  | drw x y n =>
    obtain ⟨-, rfl⟩ := exec_drw_inv h
    exact Bool.or_eq_true_iff.2 (.inl hd)
  | _ => exact (exec_keeps h State.drawFlag rfl).trans hd

/-- The transfers move I only under their toggle (R27, D13). -/
theorem exec_index (hw : ¬ writesIndex s.params i) : t.i = s.i := by
  cases i with
  | ldI | addI | ldF => exact absurd trivial hw
  | storeRegs => rw [exec_storeRegs] at h; cases h; exact if_neg hw
  | loadRegs => rw [exec_loadRegs] at h; cases h; exact if_neg hw
  | _ => exact exec_keeps h State.i rfl

/-- A register is written by being named, or, VF alone, as a flag (R22, R26). -/
theorem exec_getV {r : Nibble} (hd : ¬ namesDest i r) (hf : ¬ (r = 15#4 ∧ writesFlag s.params i)) :
    getV t r = getV s r := by
  cases i
  case ldByte | ldReg | orReg | andReg | xorReg | rnd | ldVxDT => cases h; exact getV_setV_ne s _ r _ hd
  case addByte | addReg | subReg | shr | subnReg | shl =>
    cases h
    exact (getV_writeResult s _ r _).trans ((if_neg fun hr => hf ⟨hr, trivial⟩).trans (if_neg hd))
  case drw =>
    obtain ⟨-, rfl⟩ := exec_drw_inv h
    exact getV_setV_ne _ regVF r _ fun hr => hf ⟨hr, trivial⟩
  case addI =>
    rw [exec_addI] at h; cases h
    by_cases hq : s.params.addISetsVF = true
    · rw [getV_congr (if_pos hq)]; exact getV_setV_ne s regVF r _ fun hr => hf ⟨hr, hq⟩
    · exact getV_congr (if_neg hq) r
  case loadRegs x =>
    rw [exec_loadRegs] at h; cases h
    exact (getV_loadedRegs s _ r).trans (if_neg fun hr => hd (Nat.le_of_lt_succ hr))
  all_goals exact getV_congr (exec_keeps h State.v rfl) r

/-- A flag writer leaves a flag in VF (R26, R110). -/
theorem exec_flag (hw : writesFlag s.params i) : ∃ f, getV t 15#4 = flagByte f := by
  cases i
  case addByte | addReg | subReg | shr | subnReg | shl =>
    cases h
    exact ⟨_, (getV_writeResult s _ 15#4 _).trans (if_pos rfl)⟩
  case drw =>
    obtain ⟨-, rfl⟩ := exec_drw_inv h
    exact ⟨_, getV_setV_same _ regVF _⟩
  case addI =>
    rw [exec_addI] at h; cases h
    exact ⟨_, (getV_congr (if_pos hw) 15#4).trans (getV_setV_same s regVF _)⟩
  all_goals exact hw.elim

/-- An instruction that completes either leaves FAULT alone or does nothing but raise (60_exceptions.md R178). -/
theorem exec_fault_or_raise : t.fault = s.fault ∨ ∃ c w, c ≠ .none ∧ t = raiseFault c w s := by
  cases i
  case ret =>
    rcases exec_ret_inv h with ⟨-, rfl⟩ | ⟨-, a, -, rfl⟩
    · exact .inr ⟨_, _, by decide, rfl⟩
    · exact .inl rfl
  case call =>
    rcases exec_call_inv h with ⟨-, rfl⟩ | ⟨-, -, rfl⟩
    · exact .inr ⟨_, _, by decide, rfl⟩
    · exact .inl rfl
  all_goals exact .inl (exec_keeps h State.fault rfl)

end

theorem flagByte_eq_zero_or_one (f : Bool) : flagByte f = 0 ∨ flagByte f = 1 := by cases f <;> decide

/-! ### The statements -/

/-- Settles O51: the frame of the instruction, field by field. -/
theorem eachStateHasItsWriters : Obligations.EachStateHasItsWriters :=
  fun _ _ _ h => ⟨⟨exec_keys h, exec_run h, exec_params h, exec_schedule h⟩, fun _ => exec_getV h, exec_index h,
    exec_stack h, exec_sp h, exec_fault h, exec_dt h, exec_st h, exec_mem h, exec_display h, exec_drawFlag h, exec_wait h,
    exec_rndCount h⟩

/-- Settles O50: a flag writer writes a flag, and the others reach VF by naming it. -/
theorem flagRegisterWriters : Obligations.FlagRegisterWriters := by
  refine fun i s t h => ⟨fun hw => ?flag, fun hw hd => exec_getV h hd fun hr => hw hr.2⟩
  case flag =>
    obtain ⟨f, hf⟩ := exec_flag h hw
    rw [hf]
    exact flagByte_eq_zero_or_one f

/-- Settles O44: outside the frame of the other instructions, FAULT is written by the two alone, on their raising path. -/
theorem onlyCallAndReturnFault : Obligations.OnlyCallAndReturnFault := by
  refine ⟨rfl, rfl, fun s nnn h => exec_call_of_full nnn h.not_lt, fun s => exec_ret_of_empty, fun i s t hsp h hne => ?only⟩
  case only =>
    obtain rfl | ⟨nnn, rfl⟩ := (exec_fault h).resolve_left hne
    · rcases exec_ret_inv h with ⟨h0, -⟩ | ⟨-, a, -, rfl⟩
      · exact .inr ⟨h0, rfl⟩
      · exact absurd rfl hne
    · rcases exec_call_inv h with ⟨hfull, -⟩ | ⟨-, -, rfl⟩
      · exact .inl ⟨hsp.antisymm (Nat.not_lt.1 hfull), nnn, rfl⟩
      · exact absurd rfl hne

end Sys2Proof.Machine
end

section
/-! PROOFS. What no instruction reads (spec 10_state.md sections 5 and 7): the sound timer, and, but for the two skips, the
keypad. -/

namespace Sys2Proof.Machine

/-- From a state with another keypad and sound timer an instruction answers as before, with that keypad and sound timer, unless it
skips on a key that differs or writes the sound timer. -/
theorem exec_with_keys_st {i : Instr} {s t : State} (h : exec i s = .next t) (k : Word) (b : Byte)
    (hk : (∀ x, i ≠ .skp x ∧ i ≠ .sknp x) ∨ k = s.keys) (hb : ∀ x, i ≠ .ldSTVx x) :
    exec i { s with keys := k, st := b } = .next { t with keys := k, st := b } := by
  cases i
  case ldSTVx x => exact absurd rfl (hb x)
  case skp x =>
    obtain rfl := hk.resolve_left fun hk => (hk x).1 rfl
    cases h; rfl
  case sknp x =>
    obtain rfl := hk.resolve_left fun hk => (hk x).2 rfl
    cases h; rfl
  case ret =>
    rcases exec_ret_inv h with ⟨h0, rfl⟩ | ⟨h0, a, ha, rfl⟩
    · exact exec_ret_of_empty h0
    · exact exec_ret_of_slot h0 ha
  case call nnn =>
    rcases exec_call_inv h with ⟨hfull, rfl⟩ | ⟨hd, hs, rfl⟩
    · exact exec_call_of_full nnn hfull
    · exact exec_call_of_slot nnn hd hs
  case drw =>
    obtain ⟨hhas, rfl⟩ := exec_drw_inv h
    exact if_pos hhas
  case addI => rw [exec_addI] at h ⊢; cases h; rfl
  case storeRegs => rw [exec_storeRegs] at h ⊢; cases h; rfl
  case loadRegs => rw [exec_loadRegs] at h ⊢; cases h; rfl
  all_goals cases h; rfl

/-! ### The statements -/

/-- Settles O52: the sound timer is kept, or it is what the instruction writes from a register. -/
theorem onlyKeySkipsReadKeypad : Obligations.OnlyKeySkipsReadKeypad := by
  intro i s t k hk h
  by_cases hb : ∃ x, i = .ldSTVx x
  · obtain ⟨x, rfl⟩ := hb
    cases h; rfl
  · have hst : s.st = t.st := ((exec_st h).resolve_right hb).symm
    exact (exec_with_keys_st h k s.st (.inl hk) fun x hx => hb ⟨x, hx⟩).trans (by rw [hst])

/-- Settles O53: the keypad is kept. -/
theorem soundTimerIsUnread : Obligations.SoundTimerIsUnread := by
  refine fun i s t b h => ⟨fun hb => ?kept, fun hb => ?written⟩
  case kept =>
    have hkeys : s.keys = t.keys := (exec_keys h).symm
    exact (exec_with_keys_st h s.keys b (.inr rfl) hb).trans (by rw [hkeys])
  case written =>
    obtain ⟨x, rfl⟩ := hb
    cases h; rfl

end Sys2Proof.Machine
end

section
/-! PROOFS. The step (spec 40_step_cycle.md, 60_exceptions.md): what it serves, what it does when it fetches, what it does to a
machine that is not enabled, and the statements about it. -/

namespace Sys2Proof.Machine

/-! ### A step that fetches (R93 to R95) -/

/-- An enabled `Step` that awaits no key fetches (R91). -/
theorem coreStep_of_fetching {s : State} (he : Enabled s) (hw : s.wait.valid = false) : coreStep s = fetchExecute s :=
  (coreStep_of_enabled he).trans (if_neg (hw ▸ Bool.false_ne_true))

/-- A `Step` that fetches a legal word is the meaning of its instruction (R95). -/
theorem coreStep_of_instr {s : State} {i : Instr} (he : Enabled s) (hw : s.wait.valid = false)
    (hi : decode (fetchedWord s) = .instr i) : coreStep s = exec i s := by
  rw [fetchedWord] at hi
  rw [coreStep_of_fetching he hw, fetchExecute_eq, hi]

/-- A `Step` that fetches an illegal word raises IllegalOpcode (R94). -/
theorem coreStep_of_illegal {s : State} {w : Word} (he : Enabled s) (hw : s.wait.valid = false)
    (hi : decode (fetchedWord s) = .illegalOpcode w) : coreStep s = .next (raiseFault .illegalOpcode w s) := by
  rw [fetchedWord] at hi
  rw [coreStep_of_fetching he hw, fetchExecute_eq, hi]

/-- With a `Step` next that fetches a legal word, the step is the meaning of its instruction, its request taken off. -/
theorem step_of_instr {s : State} {i : Instr} (hn : StepIsNext s) (he : Enabled s) (hw : s.wait.valid = false)
    (hi : decode (fetchedWord s) = .instr i) : step s = exec i { s with schedule := s.schedule.tail } :=
  (step_of_stepIsNext hn).trans (coreStep_of_instr he hw hi)

/-- A schedule that opens with a step request makes a `Step` next. -/
theorem stepIsNext_of_cons {s : State} {rest : List Event} (h : s.schedule = .step :: rest) : StepIsNext s :=
  .inr (by rw [h]; rfl)

/-- With an empty schedule there is no request to take off. -/
theorem without_request_of_nil {s : State} (h : s.schedule = []) : { s with schedule := s.schedule.tail } = s := by
  rw [h, List.tail_nil, ← h]

/-- At a jump to itself the word fetched is that jump's (70_reset_and_hazards.md R209). -/
theorem fetchedWord_of_selfJump {s : State} (h : AtSelfJump s) :
    fetchedWord s = encode (.jp (BitVec.ofNat 12 s.pc.toNat)) := by
  obtain ⟨hpc, hhi, hlo⟩ := h
  apply BitVec.eq_of_toNat_eq
  have hword : (fetchedWord s).toNat = 4096 + s.pc.toNat := by rw [fetchedWord, toNat_bytes, hhi, hlo]; omega
  have hjump : (encode (.jp (BitVec.ofNat 12 s.pc.toNat))).toNat = 4096 + s.pc.toNat := by
    rw [encode, toNat_nnn, BitVec.toNat_ofNat s.pc.toNat 12, Nat.mod_eq_of_lt hpc]; rfl
  rw [hword, hjump]

/-- With a `Step` next at a jump to itself, the step only takes its request off. -/
theorem step_of_selfJump {s : State} (hn : StepIsNext s) (he : Enabled s) (hw : s.wait.valid = false) (h : AtSelfJump s) :
    step s = .next { s with schedule := s.schedule.tail } := by
  have hdecode : decode (fetchedWord s) = .instr (.jp (BitVec.ofNat 12 s.pc.toNat)) := by
    rw [fetchedWord_of_selfJump h, decode_encode]
  have htarget : targetOf (BitVec.ofNat 12 s.pc.toNat) = s.pc := targetOf_eq_pc h.1 (BitVec.toNat_ofNat ..)
  rw [step_of_instr hn he hw hdecode, exec_jp, htarget]; rfl

/-! ### What a request does to a machine that is not enabled (R90, R187, R188, R192) -/

/-- KEYS after a request: a keypad write sets it. -/
def Event.keysAfter : Event → Word → Word
  | .keys snapshot, _ => snapshot
  | .step, k | .tick, k | .pause, k | .resume, k | .quit, k | .ackDraw, k => k

/-- RUN after a request: the table of transitions (R192). -/
def Event.runAfter : Event → RunState → RunState
  | .pause, r => afterPause r
  | .resume, r => afterResume r
  | .quit, r => afterQuit r
  | .step, r | .tick, r | .keys _, r | .ackDraw, r => r

/-- DRAW_FLAG after a request: the acknowledge clears it. -/
def Event.drawFlagAfter : Event → Bool → Bool
  | .ackDraw, _ => false
  | .step, d | .tick, d | .keys _, d | .pause, d | .resume, d | .quit, d => d

/-- The operation a step serves: the host's next request, or a `Step` (log entry 3). -/
def nextEvent (s : State) : Event := s.schedule.headD .step

/-- A step serves its operation on the state without the request. -/
theorem step_eq (s : State) : step s = runEvent (nextEvent s) { s with schedule := s.schedule.tail } := by
  rcases h : s.schedule with _ | ⟨e, rest⟩
  · rw [step_of_stepIsNext (.inl h), nextEvent, h]; rfl
  · rw [step_of_cons h, nextEvent, h]; rfl

theorem nextEvent_of_cons {s : State} {e : Event} {rest : List Event} (h : s.schedule = e :: rest) : nextEvent s = e := by
  rw [nextEvent, h]; rfl

theorem nextEvent_of_stepIsNext {s : State} (h : StepIsNext s) : nextEvent s = .step := by
  rcases h with h | h <;> rw [nextEvent, h] <;> rfl

/-- An operation other than a `Step` is a request of the schedule. -/
theorem schedule_of_nextEvent {s : State} {e : Event} (h : nextEvent s = e) (he : e ≠ .step) :
    s.schedule = e :: s.schedule.tail := by
  rcases hs : s.schedule with _ | ⟨e', rest⟩
  · rw [nextEvent, hs] at h; exact absurd h.symm he
  · rw [nextEvent_of_cons hs] at h; rw [h]; rfl

theorem runEvent_of_not_enabled {s : State} (h : ¬ Enabled s) (e : Event) :
    runEvent e s = .next { s with
      keys := e.keysAfter s.keys, run := e.runAfter s.run, drawFlag := e.drawFlagAfter s.drawFlag } := by
  cases e with
  | step => exact coreStep_of_not_enabled h
  | tick => exact congrArg _ (tick_of_not s h)
  | _ => rfl

/-- On a machine that is not enabled a step writes what the host itself writes, and nothing else. -/
theorem step_of_not_enabled {s : State} (h : ¬ Enabled s) :
    step s = .next { s with
      keys := (nextEvent s).keysAfter s.keys
      run := (nextEvent s).runAfter s.run
      drawFlag := (nextEvent s).drawFlagAfter s.drawFlag
      schedule := s.schedule.tail } :=
  (step_eq s).trans (runEvent_of_not_enabled (s := { s with schedule := s.schedule.tail }) h _)

/-- On a machine that is not enabled a `Step` or a `Tick` does nothing (D23, D30). -/
theorem step_of_not_enabled_of_operation {s : State} (h : ¬ Enabled s) (he : nextEvent s = .step ∨ nextEvent s = .tick) :
    step s = .next { s with schedule := s.schedule.tail } := by
  rw [step_of_not_enabled h]
  rcases he with he | he <;> rw [he] <;> rfl

theorem not_enabled_of_run {s : State} (h : s.run ≠ .running) : ¬ Enabled s := fun he => h he.1

/-- `Halted` is left by no request (R34, R192). -/
theorem runAfter_halted (e : Event) : e.runAfter .halted = .halted := by cases e <;> rfl

/-- `Paused` is left by resume and quit alone (R192). -/
theorem runAfter_paused (e : Event) : e.runAfter .paused = .paused ∨ e = .resume ∨ e = .quit := by
  cases e with
  | resume => exact .inr (.inl rfl)
  | quit => exact .inr (.inr rfl)
  | _ => exact .inl rfl

theorem afterPause_eq (r : RunState) : afterPause r = if r = .running then .paused else r := by cases r <;> rfl
theorem afterResume_eq (r : RunState) : afterResume r = if r = .paused then .running else r := by cases r <;> rfl
theorem afterQuit_eq (r : RunState) : afterQuit r = .halted := by cases r <;> rfl

/-! ### The statements -/

/-- Settles O42: an enabled step that awaits no key fetches, and adds nothing to the instruction. -/
theorem stepRunsDecodedInstruction : Obligations.StepRunsDecodedInstruction := by
  refine ⟨fun s i ⟨hs, he, hw⟩ hi => ?noRequest, fun s i rest hs he hw hi => ?request⟩
  case noRequest => rw [step_of_instr (.inl hs) he hw hi, without_request_of_nil hs]
  case request => rw [step_of_instr (stepIsNext_of_cons hs) he hw hi, hs]; rfl

/-- Settles O43: a word that matches no row is illegal for the decoder. -/
theorem unmatchedWordFaults : Obligations.UnmatchedWordFaults := by
  refine ⟨rfl, fun s hn he hw h => ?raises⟩
  case raises =>
    exact (step_of_stepIsNext hn).trans
      (coreStep_of_illegal (s := { s with schedule := s.schedule.tail }) he hw (decode_of_no_match h))

/-- Settles O49: the word fetched is the jump to PC, which writes to PC the value it has. -/
theorem selfJumpIsQuiescent : Obligations.SelfJumpIsQuiescent := by
  refine fun s he hw hj => ⟨fun hs => ?noRequest, fun rest hs => ?request⟩
  case noRequest => rw [step_of_selfJump (.inl hs) he hw hj, without_request_of_nil hs]
  case request => rw [step_of_selfJump (stepIsNext_of_cons hs) he hw hj, hs]; rfl

/-- Settles O45: with a fault recorded the machine is not enabled. -/
theorem faultFreezesMachine : Obligations.FaultFreezesMachine := by
  intro s hf
  have hdisabled : ¬ Enabled s := fun he => hf he.2
  refine ⟨fun t ht => ?hostWrites, fun h => step_of_not_enabled_of_operation hdisabled ?operation⟩
  case hostWrites => rw [step_of_not_enabled hdisabled] at ht; cases ht; rfl
  case operation =>
    rcases h with h | ⟨rest, h | h⟩
    · exact .inl (nextEvent_of_stepIsNext (.inl h))
    · exact .inl (nextEvent_of_cons h)
    · exact .inr (nextEvent_of_cons h)

/-- Settles O46: a halted machine is not enabled, and no request changes RUN. -/
theorem haltedIsTerminal : Obligations.HaltedIsTerminal := by
  intro s h
  have hrun : (nextEvent s).runAfter s.run = s.run := by rw [h, runAfter_halted]
  refine ⟨_, step_of_not_enabled (not_enabled_of_run (by rw [h]; decide)), hrun.trans h, ?_⟩
  rw [hrun]

/-- Settles O59: a paused machine is not enabled, and two requests change RUN. -/
theorem pauseHoldsEverything : Obligations.PauseHoldsEverything := by
  intro s h
  have hdisabled : ¬ Enabled s := not_enabled_of_run (by rw [h]; decide)
  refine ⟨_, step_of_not_enabled hdisabled, rfl, ?run, fun hop => ?operation⟩
  case run =>
    rcases runAfter_paused (nextEvent s) with hr | he | he
    · exact .inl (by rw [h]; exact hr)
    · exact .inr (.inl (schedule_of_nextEvent he (by decide)))
    · exact .inr (.inr (schedule_of_nextEvent he (by decide)))
  case operation =>
    have hop' := step_of_not_enabled_of_operation hdisabled (hop.imp nextEvent_of_stepIsNext nextEvent_of_cons)
    exact Host.Outcome.next.inj ((step_of_not_enabled hdisabled).symm.trans hop')

/-- Settles O47: each request is served by its own arm of `runEvent`. -/
theorem hostRequestsDoOnlyTheirOwn : Obligations.HostRequestsDoOnlyTheirOwn := by
  refine fun s rest => ⟨fun h => ?pause, fun h => ?resume, fun h => ?quit, fun k h => ?keys, fun h => ?ackDraw⟩
  case pause => rw [step_of_cons h, runEvent, afterPause_eq]
  case resume => rw [step_of_cons h, runEvent, afterResume_eq]
  case quit => rw [step_of_cons h, runEvent, afterQuit_eq]
  case keys => rw [step_of_cons h, runEvent]
  case ackDraw => rw [step_of_cons h, runEvent]

/-- Settles O48: an enabled tick is two floored countdowns; a `Step` or `Tick` that is not enabled does nothing. -/
theorem tickCountsDownWhenEnabled : Obligations.TickCountsDownWhenEnabled := by
  refine ⟨fun s rest hs he => ?counts, fun s hd => ⟨fun hs => ?noRequest, fun rest hs => ?request⟩⟩
  case counts =>
    have htick : tick { s with schedule := rest } = _ := tick_eq { s with schedule := rest } he
    rw [step_of_cons hs, runEvent, htick]
    exact ⟨_, rfl, rfl, toNat_countDown s.dt, toNat_countDown s.st⟩
  case noRequest =>
    rw [step_of_not_enabled_of_operation hd (.inl (nextEvent_of_stepIsNext (.inl hs))), without_request_of_nil hs]
  case request =>
    have htail : s.schedule.tail = rest := by rcases hs with hs | hs <;> rw [hs] <;> rfl
    rw [step_of_not_enabled_of_operation hd (hs.imp nextEvent_of_cons nextEvent_of_cons), htail]

end Sys2Proof.Machine
end

section
/-! PROOFS. The invariant (spec 10_state.md sections 2 to 8): every operation keeps it and answers a next state, and so does a
step. -/

namespace Sys2Proof.Machine

/-! ### What an instruction keeps of the invariant, part by part -/

section
variable {i : Instr} {s t : State} (h : exec i s = .next t)
include h

theorem exec_keeps_mem_WF (hm : Memory.WF s.mem) : Memory.WF t.mem := by
  rcases exec_mem h with hmem | ⟨x, rfl | rfl⟩
  · exact hmem ▸ hm
  · cases h; exact Memory.WF_writeList _ _ _ hm
  · rw [exec_storeRegs] at h; cases h; exact Memory.WF_writeList _ _ _ hm

theorem exec_keeps_slots : t.stack.length = s.stack.length := by
  rcases exec_stack h with hstack | ⟨nnn, rfl⟩
  · rw [hstack]
  · rcases exec_call_inv h with ⟨-, rfl⟩ | ⟨-, -, rfl⟩
    · rfl
    · exact List.length_set

/-- SP is raised below the capacity only (R29). -/
theorem exec_keeps_depth (hd : s.sp ≤ s.params.stackDepth) : t.sp ≤ s.params.stackDepth := by
  rcases exec_sp h with hsp | rfl | ⟨nnn, rfl⟩
  · exact hsp ▸ hd
  · rcases exec_ret_inv h with ⟨-, rfl⟩ | ⟨-, a, -, rfl⟩
    · exact hd
    · exact (Nat.sub_le s.sp 1).trans hd
  · rcases exec_call_inv h with ⟨-, rfl⟩ | ⟨hlt, -, rfl⟩
    · exact hd
    · exact hlt

theorem exec_keeps_fb_WF (hf : FrameBuffer.WF s.params s.fb) : FrameBuffer.WF s.params t.fb := by
  rcases exec_display h with ⟨hfb, -⟩ | rfl | ⟨x, y, n, rfl⟩
  · exact hfb ▸ hf
  · cases h; exact FrameBuffer.WF_blank s.params
  · obtain ⟨-, rfl⟩ := exec_drw_inv h
    exact FrameBuffer.WF_blit s.params _ s.fb false hf

/-- An instruction that completes on a machine without a fault keeps the invariant. -/
theorem exec_keeps_inv (hi : Inv s) (hn : s.fault.code = .none) : Inv t := by
  rcases exec_fault_or_raise h with hfault | ⟨c, w, hc, rfl⟩
  · exact hi.frame (exec_params h) (exec_keeps_mem_WF h hi.mem) (exec_keeps_slots h) (exec_keeps_depth h hi.depth)
      (exec_keeps_fb_WF h hi.fb) hfault (.inl hn)
  · exact hi.raise c w hc

end

/-- In a state of the invariant the slots and pixels that the model's own faults miss exist (U7). -/
theorem exec_answers {s : State} (hi : Inv s) (i : Instr) : ∃ t, exec i s = .next t := by
  cases i
  case ret =>
    by_cases h0 : s.sp = 0
    · exact ⟨_, exec_ret_of_empty h0⟩
    · have hslot : s.sp - 1 < s.stack.length := by have := hi.slots; have := hi.depth; omega
      exact ⟨_, exec_ret_of_slot h0 (List.getElem?_eq_getElem hslot)⟩
  case call nnn =>
    by_cases hd : s.sp < s.params.stackDepth
    · exact ⟨_, exec_call_of_slot nnn hd (hi.slots ▸ hd)⟩
    · exact ⟨_, exec_call_of_full nnn hd⟩
  case drw x y n => exact ⟨_, exec_drw x y n hi.params hi.fb⟩
  all_goals exact ⟨_, rfl⟩

/-! ### What an operation keeps -/

theorem keyWaitCheck_keeps_inv {s : State} (hi : Inv s) : Inv (keyWaitCheck s) := by
  rcases hkey : leastKey s.keys with _ | k
  · rwa [keyWaitCheck_of_none hkey]
  · rw [keyWaitCheck_of_some hkey]
    exact hi.frame rfl hi.mem rfl hi.depth hi.fb rfl (.inr rfl)

theorem coreStep_keeps_inv {s : State} (hi : Inv s) : ∃ t, coreStep s = .next t ∧ Inv t := by
  by_cases he : Enabled s
  · by_cases hw : s.wait.valid = true
    · exact ⟨_, coreStep_of_waiting he hw, keyWaitCheck_keeps_inv hi⟩
    · rw [Bool.not_eq_true] at hw
      rcases decode_cases (fetchedWord s) with ⟨i, hinstr⟩ | hillegal
      · obtain ⟨t, ht⟩ := exec_answers hi i
        exact ⟨t, (coreStep_of_instr he hw hinstr).trans ht, exec_keeps_inv ht hi he.2⟩
      · exact ⟨_, coreStep_of_illegal he hw hillegal, hi.raise _ _ (by decide)⟩
  · exact ⟨_, coreStep_of_not_enabled he, hi⟩

theorem tick_keeps_inv {s : State} (hi : Inv s) : Inv (tick s) := by
  by_cases he : Enabled s
  · rw [tick_eq s he]
    exact hi.frame rfl hi.mem rfl hi.depth hi.fb rfl (.inr rfl)
  · rwa [tick_of_not s he]

/-- The host's requests other than an operation write no part of the invariant. -/
theorem runEvent_keeps_inv {s : State} (hi : Inv s) (e : Event) : ∃ t, runEvent e s = .next t ∧ Inv t := by
  cases e with
  | step => exact coreStep_keeps_inv hi
  | tick => exact ⟨_, rfl, tick_keeps_inv hi⟩
  | _ => exact ⟨_, rfl, hi.frame rfl hi.mem rfl hi.depth hi.fb rfl (.inr rfl)⟩

/-! ### The statement -/

/-- Settles O58: the schedule is no part of the invariant, and each operation answers and keeps it. -/
theorem stepKeepsInvariantAndAnswers : Obligations.StepKeepsInvariantAndAnswers := by
  intro s hi
  have hi' : Inv { s with schedule := s.schedule.tail } := hi.frame rfl hi.mem rfl hi.depth hi.fb rfl (.inr rfl)
  rw [step_eq]
  exact runEvent_keeps_inv hi' (nextEvent s)

end Sys2Proof.Machine
end

section
/-! PROOFS. Reset and load (spec 70_reset_and_hazards.md sections 1 and 2): the cleared state, the memory a load leaves, the
launch state, and the load-time errors. -/

namespace Sys2Proof.Machine

/-- Reset clears everything (R200). -/
theorem cleared_afterReset (p : Params) (run : RunState) : Cleared p (afterReset p run) where
  v r := Vector.getElem_replicate r.isLt
  i := rfl
  sp := rfl
  stack := rfl
  dt := rfl
  st := rfl
  fb := rfl
  drawFlag := rfl
  keys := rfl
  wait := rfl
  fault := rfl
  params := rfl
  rndCount := rfl
  schedule := rfl

/-- PC, MEM and RUN are no part of what is cleared. -/
theorem Cleared.launch {p : Params} {s : State} (h : Cleared p s) (mem : Memory) (pc : Word) (run : RunState) :
    Cleared p { s with mem := mem, pc := pc, run := run } :=
  ⟨h.v, h.i, h.sp, h.stack, h.dt, h.st, h.fb, h.drawFlag, h.keys, h.wait, h.fault, h.params, h.rndCount, h.schedule⟩

/-- The first state is a reset of the default machine, with the launch content of memory (R203, log entry 2). -/
theorem cleared_reset : Cleared defaultParams State.reset :=
  (cleared_afterReset defaultParams .running).launch [] 0x0200 .running

/-- A cleared state meets the invariant when its parameters are in bounds and its memory is canonical. -/
theorem Cleared.inv {p : Params} {s : State} (h : Cleared p s) (hp : p.WF) (hm : Memory.WF s.mem) : Inv s where
  params := h.params ▸ hp
  mem := hm
  slots := by rw [h.stack, h.params, List.length_replicate]
  depth := by rw [h.sp]; exact Nat.zero_le _
  fb := by rw [h.fb, h.params]; exact FrameBuffer.WF_blank p
  noFault _ := by rw [h.fault]; exact ⟨rfl, rfl⟩
  frozen hc := by rw [h.fault] at hc; exact absurd rfl hc

/-! ### Memory after a load (R205): image and font do not overlap, so each is read where it was written -/

/-- The bytes of the image, which is written last. -/
theorem readMem_load_image {font image : List Byte} (s : State) (hi : ImageFits image) {k : Nat} (hk : k < image.length) :
    readMem (storeBytes (storeBytes s 0 font) entryPoint image) (0x200 + k) = image.getD k 0 := by
  have hlen : image.length ≤ memSize := hi.trans (by decide)
  rw [List.getD_eq_getElem _ _ hk]
  exact readMem_storeBytes (storeBytes s 0 font) entryPoint image k hk hlen

/-- Outside the image the load leaves the font over the old memory. -/
theorem readMem_load_outside {font image : List Byte} (s : State) (hi : ImageFits image) {a : Nat} (ha : a < 4096)
    (hout : a < 0x200 ∨ 0x200 + image.length ≤ a) :
    readMem (storeBytes (storeBytes s 0 font) entryPoint image) a = readMem (storeBytes s 0 font) a := by
  refine readMem_storeBytes_of_ne _ _ _ _ fun k hk => ?_
  simp only [ImageFits, maxImage] at hi
  simp only [entryPoint, memSize]
  omega

theorem readMem_font {font : List Byte} (s : State) (hf : FontWF font) {a : Nat} (ha : a < 80) :
    readMem (storeBytes s 0 font) a = font.getD a 0 := by
  have hlt : a < font.length := hf ▸ ha
  have hread := readMem_storeBytes s 0 font a hlt (hf.le.trans (by decide))
  rwa [Nat.zero_add, ← List.getD_eq_getElem _ 0 hlt] at hread

theorem readMem_above_font {font : List Byte} (s : State) (hf : FontWF font) {a : Nat} (ha : 80 ≤ a) (hm : a < 4096) :
    readMem (storeBytes s 0 font) a = readMem s a := by
  refine readMem_storeBytes_of_ne _ _ _ _ fun k hk => ?_
  rw [hf] at hk
  simp only [memSize]
  omega

/-- The memory of the first state (R204, log entry 10). -/
theorem readMem_reset {a : Nat} (ha : a < 4096) : readMem State.reset a = Memory.background a :=
  congrArg Memory.background (Nat.mod_eq_of_lt (show a < memSize from ha))

/-! ### The statements -/

/-- Settles O54: the first state is cleared, and its memory is what an unlisted address reads as. -/
theorem resetIsLaunchState : Obligations.ResetIsLaunchState := by
  refine ⟨cleared_reset, rfl, rfl, fun a ha => ?font, fun a ha hm => ?zero⟩
  case font => exact readMem_reset (by omega)
  case zero => rw [readMem_reset hm, Memory.background_of_le a ha]

/-- Settles O60: reset clears, and writes zero over the font's place in memory. -/
theorem resetZeroesEverything : Obligations.ResetZeroesEverything :=
  fun p run => ⟨cleared_afterReset p run, rfl, rfl, readMem_afterReset p run⟩

/-- Settles O57: the first state is cleared, with the default parameters and an empty memory. -/
theorem resetMeetsInvariant : Obligations.ResetMeetsInvariant := cleared_reset.inv (by decide) Memory.WF_nil

/-- Settles O55: the bound on the image is `maxImage`. -/
theorem loadFailsByName : Obligations.LoadFailsByName :=
  fun font s => ⟨rfl, fun _ h => if_pos h, fun image h => ⟨_, load_eq font image s h⟩⟩

/-- Settles O56: a load writes memory, PC and RUN of a cleared state. -/
theorem loadGivesLaunchState : Obligations.LoadGivesLaunchState := by
  intro p run font image hp hf hi
  have hcleared := (cleared_afterReset p run).launch
    (storeBytes (storeBytes (afterReset p run) 0 font) entryPoint image).mem (BitVec.ofNat 16 entryPoint) .running
  have hzero {a : Nat} (ha : 80 ≤ a) (hm : a < 4096) : readMem (storeBytes (afterReset p run) 0 font) a = 0 := by
    rw [readMem_above_font _ hf ha hm, readMem_afterReset]
  refine ⟨_, load_eq font image _ hi, hcleared.inv hp ?canonical, hcleared, rfl, rfl, fun a ha => ?font, fun k hk => ?image,
    fun a ha hm => ?between, fun a ha hm => ?above⟩
  case canonical => exact Memory.WF_writeList _ _ _ (Memory.WF_writeList _ _ _ (Memory.WF_afterReset p run))
  case font => rw [readMem_launch, readMem_load_outside _ hi (by omega) (.inl (by omega)), readMem_font _ hf ha]
  case image => rw [readMem_launch, readMem_load_image _ hi hk]
  case between => rw [readMem_launch, readMem_load_outside _ hi (by omega) (.inl hm), hzero ha (by omega)]
  case above => rw [readMem_launch, readMem_load_outside _ hi hm (.inr ha), hzero (by omega) hm]

end Sys2Proof.Machine
end
